-- ==== Sys2Proof/Word.lean ====
section
/-! DEFINITION. The word types of the machine (spec/00_scope.md R4, R5, R6): 32-bit words and addresses, 8-bit
bytes, and the fields an instruction word is cut into (spec/30_encoding.md R61). -/

namespace Sys2Proof

/-- A register value or an address: a 32-bit string (R6). -/
abbrev Word := BitVec 32

/-- What one address holds (R40). -/
abbrev Byte := BitVec 8

/-- A general register number, 0 to 31 (R61). -/
abbrev RegNum := BitVec 5

/-- A shift amount `shamt`, 0 to 31 (R61). -/
abbrev Shamt := BitVec 5

/-- A 16-bit immediate or offset `imm16` (R61). -/
abbrev Imm16 := BitVec 16

/-- A 26-bit jump target `target26` (R61). -/
abbrev Target26 := BitVec 26

/-- The bits 25:6 of a SYSCALL word: ignored by the processor, 0 in an encoded word (R76), and handed to the environment
with the rest of the word (R180). -/
abbrev SyscallCode := BitVec 20

end Sys2Proof
end

