-- ==== Sys2Proof/Config.lean ====
section
/-! DEFINITION. What the spec leaves to the implementation or the environment (spec/00_scope.md R4,
spec/92_eei_decisions.md): the types of the parameters, and the three free values, constants with no body.
The parameters themselves are plain data, so that a state can carry them (log 7). -/

namespace Sys2Proof.Config

/-- `BYTE_ORDER` (R41, D1): OPEN, constant over a run, the same for fetch and data. -/
inductive ByteOrder where
  | big
  | little
  deriving DecidableEq, Repr

/-- The kind of an access, as `MEM_MAP` distinguishes them (R47). -/
inductive AccessKind where
  | fetch
  | read
  | write
  deriving DecidableEq, Repr

/-- The size of an access, 1 or 4 bytes (R46, R47). -/
inductive AccessSize where
  | byte
  | word
  deriving DecidableEq, Repr

/-- One line of `MEM_MAP` (R47, D8): accesses of this kind and size are admitted at every address from `first` to
`last`, both included. A list of lines is any predicate on an address, a size and a kind (log 2). -/
structure MapEntry where
  kind  : AccessKind
  size  : AccessSize
  first : Nat
  last  : Nat
  deriving DecidableEq, Repr

/-- `ENV_SYSCALL` (R181, D6): the spec's default `halt`, or an environment of which the spec states nothing more
than the form of its answer (log 9). -/
inductive EnvPolicy where
  | halt
  | environment
  deriving DecidableEq, Repr

/-- `SMC` (R54, D10): what a store into memory that may be fetched does. -/
inductive SmcPolicy where
  | refuse
  | coherent
  deriving DecidableEq, Repr

/-- `MULT_HI` (R148, D11): what MULT and MULTU leave in `hi`. -/
inductive MultHiPolicy where
  | unspecified
  | unchanged
  | highWord
  deriving DecidableEq, Repr

/-- `LOGICAL_IMM_EXT` and `LB_EXT` (R110, R151, D13, D14): how a short value is widened. -/
inductive Extension where
  | zero
  | sign
  deriving DecidableEq, Repr

/-- `DELAY_SLOT_BRANCH` (R133, D17): a control transfer executed while `npc` is not `pc + 4`. -/
inductive DelaySlotPolicy where
  | fault
  | literal
  deriving DecidableEq, Repr

/-- The parameters of R4 that stay constant over a run. `ENTRY` and `INIT` act at launch only (R32). -/
structure Params where
  byteOrder       : ByteOrder
  memMap          : List MapEntry
  envSyscall      : EnvPolicy
  smc             : SmcPolicy
  multHi          : MultHiPolicy
  logicalImmExt   : Extension
  lbExt           : Extension
  delaySlotBranch : DelaySlotPolicy
  linkConditional : Bool
  deriving DecidableEq, Repr

/-- Which division met its corner (the first argument of `DIV_CORNER`, R147). -/
inductive DivKind where
  | div
  | divu
  deriving DecidableEq, Repr

/-- Which multiplication (the first argument of `MULT_HI`, R148). -/
inductive MultKind where
  | mult
  | multu
  deriving DecidableEq, Repr

/-- What the environment receives at a SYSCALL (R181): the instruction word and the whole state after
`advance_pc(4)`. -/
structure EnvView where
  w   : Word
  x   : Vector Word 32
  hi  : Word
  lo  : Word
  pc  : Word
  npc : Word
  mem : List Host.Cell
  deriving DecidableEq, Repr

/-- What the environment answers (R181). `x[0]`, `pc`, `npc` and the fault record are not its to change. -/
inductive EnvAnswer where
  | halt
  | resume (x : Vector Word 32) (hi lo : Word) (mem : List Host.Cell)
  deriving DecidableEq, Repr, Inhabited

/-- `DIV_CORNER` (R147, D12): the pair `(hi, lo)` after a division corner, a total function of the instruction and
the two operands about which nothing further is stated (log 13). -/
opaque divCorner : DivKind → Word → Word → Word × Word

/-- The value `hi` holds after the n-th MULT or MULTU under `MULT_HI = unspecified` (R148, R233 treatment (b),
log 12). -/
opaque multHiDraw : Nat → Word

/-- `ENV_SYSCALL` under the setting `environment` (R181, log 9): any function of what the environment receives. -/
opaque envSyscall : EnvView → EnvAnswer

end Sys2Proof.Config
end

