-- ==== Sys2Proof/Syntax.lean ====
section
/-! DEFINITION. The 45 instructions (spec/00_scope.md R2, spec/30_encoding.md R65), one constructor for each row of
the opcode table, in its order. The operands stand in the order of the assembler syntax (R73). -/

namespace Sys2Proof

/-- The instructions, with their operands as the fields of the word give them (R61). Ignored positions are no
operands (R68, R76). SYSCALL has no operand (R180): its `code` is what the decoder keeps of the word's ignored bits 25:6,
the fields `rs`, `rt`, `rd` and `shamt` that R69 cuts, so that the environment receives the whole word (log 18). -/
inductive Instr where
  | add (rd rs rt : RegNum)
  | addi (rt rs : RegNum) (imm : Imm16)
  | addiu (rt rs : RegNum) (imm : Imm16)
  | addu (rd rs rt : RegNum)
  | and (rd rs rt : RegNum)
  | andi (rt rs : RegNum) (imm : Imm16)
  | beq (rs rt : RegNum) (offset : Imm16)
  | bgez (rs : RegNum) (offset : Imm16)
  | bgezal (rs : RegNum) (offset : Imm16)
  | bgtz (rs : RegNum) (offset : Imm16)
  | blez (rs : RegNum) (offset : Imm16)
  | bltz (rs : RegNum) (offset : Imm16)
  | bltzal (rs : RegNum) (offset : Imm16)
  | bne (rs rt : RegNum) (offset : Imm16)
  | div (rs rt : RegNum)
  | divu (rs rt : RegNum)
  | j (target : Target26)
  | jal (target : Target26)
  | jr (rs : RegNum)
  | lb (rt : RegNum) (offset : Imm16) (rs : RegNum)
  | lui (rt : RegNum) (imm : Imm16)
  | lw (rt : RegNum) (offset : Imm16) (rs : RegNum)
  | mfhi (rd : RegNum)
  | mflo (rd : RegNum)
  | mult (rs rt : RegNum)
  | multu (rs rt : RegNum)
  | noop
  | or (rd rs rt : RegNum)
  | ori (rt rs : RegNum) (imm : Imm16)
  | sb (rt : RegNum) (offset : Imm16) (rs : RegNum)
  | sll (rd rt : RegNum) (shamt : Shamt)
  | sllv (rd rt rs : RegNum)
  | slt (rd rs rt : RegNum)
  | slti (rt rs : RegNum) (imm : Imm16)
  | sltiu (rt rs : RegNum) (imm : Imm16)
  | sltu (rd rs rt : RegNum)
  | sra (rd rt : RegNum) (shamt : Shamt)
  | srl (rd rt : RegNum) (shamt : Shamt)
  | srlv (rd rt rs : RegNum)
  | sub (rd rs rt : RegNum)
  | subu (rd rs rt : RegNum)
  | sw (rt : RegNum) (offset : Imm16) (rs : RegNum)
  | syscall (code : SyscallCode)
  | xor (rd rs rt : RegNum)
  | xori (rt rs : RegNum) (imm : Imm16)
  deriving DecidableEq, Repr

end Sys2Proof
end

