-- ==== Sys2Proof/WellFormed.lean ====
section
/-! DEFINITION. Which terms of `Instr` have a word of their own. The types already bound every operand to its field
(spec/30_encoding.md R61), so two checks are left: the encoder's word of `sll $0, $0, 0` is NOOP's (R69, R76), and the
encoder writes the ignored bits 25:6 of SYSCALL as 0 (R76). -/

namespace Sys2Proof

/-- The encoder's word of the instruction decodes to it: every term but `sll $0, $0, 0`, whose word is NOOP's (R76), and a
SYSCALL that keeps ignored bits other than 0. Words with such bits in their ignored fields still decode to these terms
(R162, R180). -/
def Instr.wellFormed : Instr → Bool
  | .sll rd rt shamt => !(rd == 0 && rt == 0 && shamt == 0)
  | .syscall code => code == 0
  | .add _ _ _ | .addi _ _ _ | .addiu _ _ _ | .addu _ _ _ | .and _ _ _ | .andi _ _ _
  | .beq _ _ _ | .bgez _ _ | .bgezal _ _ | .bgtz _ _ | .blez _ _ | .bltz _ _ | .bltzal _ _ | .bne _ _ _
  | .div _ _ | .divu _ _ | .j _ | .jal _ | .jr _ | .lb _ _ _ | .lui _ _ | .lw _ _ _
  | .mfhi _ | .mflo _ | .mult _ _ | .multu _ _ | .noop | .or _ _ _ | .ori _ _ _ | .sb _ _ _
  | .sllv _ _ _ | .slt _ _ _ | .slti _ _ _ | .sltiu _ _ _ | .sltu _ _ _ | .sra _ _ _ | .srl _ _ _
  | .srlv _ _ _ | .sub _ _ _ | .subu _ _ _ | .sw _ _ _ | .xor _ _ _ | .xori _ _ _ => true

end Sys2Proof
end

