-- ==== Sys2Proof/Decode.lean ====
section
/-! DEFINITION. The decoder, total on all words (spec/30_encoding.md R67 to R70), and the encoder (R76), both written
from the encoding tables; and the opcode table itself (R65), by match and mask. -/

namespace Sys2Proof

/-! ## The fields of a word (R61) -/

def opcodeOf (w : Word) : BitVec 6 := w.extractLsb' 26 6
def rsOf (w : Word) : RegNum := w.extractLsb' 21 5
def rtOf (w : Word) : RegNum := w.extractLsb' 16 5
def rdOf (w : Word) : RegNum := w.extractLsb' 11 5
def shamtOf (w : Word) : Shamt := w.extractLsb' 6 5
def functOf (w : Word) : BitVec 6 := w.extractLsb' 0 6
def imm16Of (w : Word) : Imm16 := w.extractLsb' 0 16
def target26Of (w : Word) : Target26 := w.extractLsb' 0 26
def syscallCodeOf (w : Word) : SyscallCode := w.extractLsb' 6 20

/-! ## The decoder -/

/-- Why no instruction is decoded: the word matches no row of the table (R70), or there are fewer than four bytes
(R60; no fetch meets this). -/
inductive DecodeReject where
  | reserved (w : Word)
  | truncated
  deriving DecidableEq, Repr

/-- The instruction, if the fields that must be zero are zero (R67, R68); else the word is reserved (R70). -/
def decodeWhen (ok : Bool) (w : Word) (i : Instr) : Except DecodeReject Instr :=
  if ok then .ok i else .error (.reserved w)

/-- `opcode` = 000000: list (a) of R67, by `funct`, with the fields that must be zero. NOOP stands before SLL (R69). -/
def decodeFunct (w : Word) : Except DecodeReject Instr :=
  match (functOf w).toNat with
  | 0b000000 => .ok (if w = 0 then .noop else .sll (rdOf w) (rtOf w) (shamtOf w))
  | 0b000010 => .ok (.srl (rdOf w) (rtOf w) (shamtOf w))
  | 0b000011 => .ok (.sra (rdOf w) (rtOf w) (shamtOf w))
  | 0b000100 => .ok (.sllv (rdOf w) (rtOf w) (rsOf w))
  | 0b000110 => decodeWhen (shamtOf w == 0) w (.srlv (rdOf w) (rtOf w) (rsOf w))
  | 0b001000 => decodeWhen (rtOf w == 0 && rdOf w == 0 && shamtOf w == 0) w (.jr (rsOf w))
  | 0b001100 => .ok (.syscall (syscallCodeOf w))
  | 0b010000 => decodeWhen (rsOf w == 0 && rtOf w == 0 && shamtOf w == 0) w (.mfhi (rdOf w))
  | 0b010010 => decodeWhen (rsOf w == 0 && rtOf w == 0 && shamtOf w == 0) w (.mflo (rdOf w))
  | 0b011000 => decodeWhen (rdOf w == 0 && shamtOf w == 0) w (.mult (rsOf w) (rtOf w))
  | 0b011001 => decodeWhen (rdOf w == 0 && shamtOf w == 0) w (.multu (rsOf w) (rtOf w))
  | 0b011010 => decodeWhen (rdOf w == 0 && shamtOf w == 0) w (.div (rsOf w) (rtOf w))
  | 0b011011 => decodeWhen (rdOf w == 0 && shamtOf w == 0) w (.divu (rsOf w) (rtOf w))
  | 0b100000 => decodeWhen (shamtOf w == 0) w (.add (rdOf w) (rsOf w) (rtOf w))
  | 0b100001 => decodeWhen (shamtOf w == 0) w (.addu (rdOf w) (rsOf w) (rtOf w))
  | 0b100010 => decodeWhen (shamtOf w == 0) w (.sub (rdOf w) (rsOf w) (rtOf w))
  | 0b100011 => decodeWhen (shamtOf w == 0) w (.subu (rdOf w) (rsOf w) (rtOf w))
  | 0b100100 => decodeWhen (shamtOf w == 0) w (.and (rdOf w) (rsOf w) (rtOf w))
  | 0b100101 => decodeWhen (shamtOf w == 0) w (.or (rdOf w) (rsOf w) (rtOf w))
  | 0b100110 => .ok (.xor (rdOf w) (rsOf w) (rtOf w))
  | 0b101010 => decodeWhen (shamtOf w == 0) w (.slt (rdOf w) (rsOf w) (rtOf w))
  | 0b101011 => decodeWhen (shamtOf w == 0) w (.sltu (rdOf w) (rsOf w) (rtOf w))
  | _ => .error (.reserved w)

/-- `opcode` = 000001: list (b) of R67, by `rt`. -/
def decodeRtSelector (w : Word) : Except DecodeReject Instr :=
  match (rtOf w).toNat with
  | 0b00000 => .ok (.bltz (rsOf w) (imm16Of w))
  | 0b00001 => .ok (.bgez (rsOf w) (imm16Of w))
  | 0b10000 => .ok (.bltzal (rsOf w) (imm16Of w))
  | 0b10001 => .ok (.bgezal (rsOf w) (imm16Of w))
  | _ => .error (.reserved w)

/-- The decode function (R69), by the opcode map of R67. -/
def decode (w : Word) : Except DecodeReject Instr :=
  match (opcodeOf w).toNat with
  | 0b000000 => decodeFunct w
  | 0b000001 => decodeRtSelector w
  | 0b000010 => .ok (.j (target26Of w))
  | 0b000011 => .ok (.jal (target26Of w))
  | 0b000100 => .ok (.beq (rsOf w) (rtOf w) (imm16Of w))
  | 0b000101 => .ok (.bne (rsOf w) (rtOf w) (imm16Of w))
  | 0b000110 => decodeWhen (rtOf w == 0) w (.blez (rsOf w) (imm16Of w))
  | 0b000111 => decodeWhen (rtOf w == 0) w (.bgtz (rsOf w) (imm16Of w))
  | 0b001000 => .ok (.addi (rtOf w) (rsOf w) (imm16Of w))
  | 0b001001 => .ok (.addiu (rtOf w) (rsOf w) (imm16Of w))
  | 0b001010 => .ok (.slti (rtOf w) (rsOf w) (imm16Of w))
  | 0b001011 => .ok (.sltiu (rtOf w) (rsOf w) (imm16Of w))
  | 0b001100 => .ok (.andi (rtOf w) (rsOf w) (imm16Of w))
  | 0b001101 => .ok (.ori (rtOf w) (rsOf w) (imm16Of w))
  | 0b001110 => .ok (.xori (rtOf w) (rsOf w) (imm16Of w))
  | 0b001111 => .ok (.lui (rtOf w) (imm16Of w))
  | 0b100000 => .ok (.lb (rtOf w) (imm16Of w) (rsOf w))
  | 0b100011 => .ok (.lw (rtOf w) (imm16Of w) (rsOf w))
  | 0b101000 => .ok (.sb (rtOf w) (imm16Of w) (rsOf w))
  | 0b101011 => .ok (.sw (rtOf w) (imm16Of w) (rsOf w))
  | _ => .error (.reserved w)

/-! ## A word as four bytes (R41) -/

/-- The four bytes of a word, lowest address first, by the table of R41. -/
def wordBytes (o : Config.ByteOrder) (v : Word) : Vector Byte 4 :=
  match o with
  | .big => #v[v.extractLsb' 24 8, v.extractLsb' 16 8, v.extractLsb' 8 8, v.extractLsb' 0 8]
  | .little => #v[v.extractLsb' 0 8, v.extractLsb' 8 8, v.extractLsb' 16 8, v.extractLsb' 24 8]

/-- The concatenation of four bytes, the first in the high bits (R5). -/
def concatBytes (b3 b2 b1 b0 : Byte) : Word :=
  (b3.setWidth 32 <<< 24) ||| (b2.setWidth 32 <<< 16) ||| (b1.setWidth 32 <<< 8) ||| b0.setWidth 32

/-- The word that four bytes, lowest address first, hold (R43). -/
def joinBytes (o : Config.ByteOrder) (b0 b1 b2 b3 : Byte) : Word :=
  match o with
  | .big => concatBytes b0 b1 b2 b3
  | .little => concatBytes b3 b2 b1 b0

/-- The instruction at the head of a run of bytes, and the bytes after it: always four bytes (R60, R72). -/
def decodeBytes (o : Config.ByteOrder) : List Byte → Except DecodeReject (Instr × List Byte)
  | b0 :: b1 :: b2 :: b3 :: rest => (decode (joinBytes o b0 b1 b2 b3)).map fun i => (i, rest)
  | _ => .error .truncated

/-- The host's question: the instruction read from the word `w`, laid out as bytes and decoded. Every instruction has
one word of 32 bits (R60), so the bits from `nbits` up are 0. -/
def decodeTableWord (nbits w : Nat) : Option Instr :=
  match decodeBytes .big (wordBytes .big (BitVec.ofNat 32 (w % 2 ^ nbits))).toList with
  | .ok (i, _) => some i
  | .error _ => none

/-! ## The encoder (R76) -/

/-! Each operand at its field, to be or-ed into the row's match. -/

def atRs (r : RegNum) : Word := r.setWidth 32 <<< 21
def atRt (r : RegNum) : Word := r.setWidth 32 <<< 16
def atRd (r : RegNum) : Word := r.setWidth 32 <<< 11
def atShamt (h : Shamt) : Word := h.setWidth 32 <<< 6
def atImm16 (i : Imm16) : Word := i.setWidth 32
def atTarget26 (t : Target26) : Word := t.setWidth 32
def atSyscallCode (c : SyscallCode) : Word := c.setWidth 32 <<< 6

/-- The word of an instruction (R76): the match of its row in R65, and every operand in its field. Ignored positions
are 0. -/
def encode : Instr → Word
  | .add rd rs rt => 0x00000020 ||| atRs rs ||| atRt rt ||| atRd rd
  | .addi rt rs imm => 0x20000000 ||| atRs rs ||| atRt rt ||| atImm16 imm
  | .addiu rt rs imm => 0x24000000 ||| atRs rs ||| atRt rt ||| atImm16 imm
  | .addu rd rs rt => 0x00000021 ||| atRs rs ||| atRt rt ||| atRd rd
  | .and rd rs rt => 0x00000024 ||| atRs rs ||| atRt rt ||| atRd rd
  | .andi rt rs imm => 0x30000000 ||| atRs rs ||| atRt rt ||| atImm16 imm
  | .beq rs rt offset => 0x10000000 ||| atRs rs ||| atRt rt ||| atImm16 offset
  | .bgez rs offset => 0x04010000 ||| atRs rs ||| atImm16 offset
  | .bgezal rs offset => 0x04110000 ||| atRs rs ||| atImm16 offset
  | .bgtz rs offset => 0x1C000000 ||| atRs rs ||| atImm16 offset
  | .blez rs offset => 0x18000000 ||| atRs rs ||| atImm16 offset
  | .bltz rs offset => 0x04000000 ||| atRs rs ||| atImm16 offset
  | .bltzal rs offset => 0x04100000 ||| atRs rs ||| atImm16 offset
  | .bne rs rt offset => 0x14000000 ||| atRs rs ||| atRt rt ||| atImm16 offset
  | .div rs rt => 0x0000001A ||| atRs rs ||| atRt rt
  | .divu rs rt => 0x0000001B ||| atRs rs ||| atRt rt
  | .j target => 0x08000000 ||| atTarget26 target
  | .jal target => 0x0C000000 ||| atTarget26 target
  | .jr rs => 0x00000008 ||| atRs rs
  | .lb rt offset rs => 0x80000000 ||| atRs rs ||| atRt rt ||| atImm16 offset
  | .lui rt imm => 0x3C000000 ||| atRt rt ||| atImm16 imm
  | .lw rt offset rs => 0x8C000000 ||| atRs rs ||| atRt rt ||| atImm16 offset
  | .mfhi rd => 0x00000010 ||| atRd rd
  | .mflo rd => 0x00000012 ||| atRd rd
  | .mult rs rt => 0x00000018 ||| atRs rs ||| atRt rt
  | .multu rs rt => 0x00000019 ||| atRs rs ||| atRt rt
  | .noop => 0x00000000
  | .or rd rs rt => 0x00000025 ||| atRs rs ||| atRt rt ||| atRd rd
  | .ori rt rs imm => 0x34000000 ||| atRs rs ||| atRt rt ||| atImm16 imm
  | .sb rt offset rs => 0xA0000000 ||| atRs rs ||| atRt rt ||| atImm16 offset
  | .sll rd rt shamt => 0x00000000 ||| atRt rt ||| atRd rd ||| atShamt shamt
  | .sllv rd rt rs => 0x00000004 ||| atRs rs ||| atRt rt ||| atRd rd
  | .slt rd rs rt => 0x0000002A ||| atRs rs ||| atRt rt ||| atRd rd
  | .slti rt rs imm => 0x28000000 ||| atRs rs ||| atRt rt ||| atImm16 imm
  | .sltiu rt rs imm => 0x2C000000 ||| atRs rs ||| atRt rt ||| atImm16 imm
  | .sltu rd rs rt => 0x0000002B ||| atRs rs ||| atRt rt ||| atRd rd
  | .sra rd rt shamt => 0x00000003 ||| atRt rt ||| atRd rd ||| atShamt shamt
  | .srl rd rt shamt => 0x00000002 ||| atRt rt ||| atRd rd ||| atShamt shamt
  | .srlv rd rt rs => 0x00000006 ||| atRs rs ||| atRt rt ||| atRd rd
  | .sub rd rs rt => 0x00000022 ||| atRs rs ||| atRt rt ||| atRd rd
  | .subu rd rs rt => 0x00000023 ||| atRs rs ||| atRt rt ||| atRd rd
  | .sw rt offset rs => 0xAC000000 ||| atRs rs ||| atRt rt ||| atImm16 offset
  | .syscall _ => 0x0000000C
  | .xor rd rs rt => 0x00000026 ||| atRs rs ||| atRt rt ||| atRd rd
  | .xori rt rs imm => 0x38000000 ||| atRs rs ||| atRt rt ||| atImm16 imm

/-- The SYSCALL word with these bits 25:6: the word that was decoded, whole, as the environment receives it (R180). -/
def syscallWord (code : SyscallCode) : Word := 0x0000000C ||| atSyscallCode code

/-- The bits of a word that its instruction ignores (R68): hyphens of the pattern, and SLL's `rs` letters. -/
def ignoredBits : Instr → Word
  | .sll _ _ _ | .sra _ _ _ | .srl _ _ _ | .lui _ _ => 0x03E00000
  | .sllv _ _ _ | .xor _ _ _ => 0x000007C0
  | .add _ _ _ | .addi _ _ _ | .addiu _ _ _ | .addu _ _ _ | .and _ _ _ | .andi _ _ _
  | .beq _ _ _ | .bgez _ _ | .bgezal _ _ | .bgtz _ _ | .blez _ _ | .bltz _ _ | .bltzal _ _ | .bne _ _ _
  | .div _ _ | .divu _ _ | .j _ | .jal _ | .jr _ | .lb _ _ _ | .lw _ _ _
  | .mfhi _ | .mflo _ | .mult _ _ | .multu _ _ | .noop | .or _ _ _ | .ori _ _ _ | .sb _ _ _
  | .slt _ _ _ | .slti _ _ _ | .sltiu _ _ _ | .sltu _ _ _
  | .srlv _ _ _ | .sub _ _ _ | .subu _ _ _ | .sw _ _ _ | .xori _ _ _ => 0
  | .syscall _ => 0x03FFFFC0

/-! ## The opcode table by match and mask (R62, R65) -/

/-- One row of R65: the word `w` selects it when `w &&& mask = match`. `build` cuts the operands (R69). -/
structure OpcodeRow where
  matchBits : Word
  maskBits  : Word
  build     : Word → Instr

/-- A word selects a row (R62). -/
def OpcodeRow.selects (r : OpcodeRow) (w : Word) : Bool := w &&& r.maskBits == r.matchBits

/-- The table of R65 in its order, which has NOOP before SLL (R69). -/
def opcodeTable : List OpcodeRow :=
  [ ⟨0x00000020, 0xFC0007FF, fun w => .add (rdOf w) (rsOf w) (rtOf w)⟩,
    ⟨0x20000000, 0xFC000000, fun w => .addi (rtOf w) (rsOf w) (imm16Of w)⟩,
    ⟨0x24000000, 0xFC000000, fun w => .addiu (rtOf w) (rsOf w) (imm16Of w)⟩,
    ⟨0x00000021, 0xFC0007FF, fun w => .addu (rdOf w) (rsOf w) (rtOf w)⟩,
    ⟨0x00000024, 0xFC0007FF, fun w => .and (rdOf w) (rsOf w) (rtOf w)⟩,
    ⟨0x30000000, 0xFC000000, fun w => .andi (rtOf w) (rsOf w) (imm16Of w)⟩,
    ⟨0x10000000, 0xFC000000, fun w => .beq (rsOf w) (rtOf w) (imm16Of w)⟩,
    ⟨0x04010000, 0xFC1F0000, fun w => .bgez (rsOf w) (imm16Of w)⟩,
    ⟨0x04110000, 0xFC1F0000, fun w => .bgezal (rsOf w) (imm16Of w)⟩,
    ⟨0x1C000000, 0xFC1F0000, fun w => .bgtz (rsOf w) (imm16Of w)⟩,
    ⟨0x18000000, 0xFC1F0000, fun w => .blez (rsOf w) (imm16Of w)⟩,
    ⟨0x04000000, 0xFC1F0000, fun w => .bltz (rsOf w) (imm16Of w)⟩,
    ⟨0x04100000, 0xFC1F0000, fun w => .bltzal (rsOf w) (imm16Of w)⟩,
    ⟨0x14000000, 0xFC000000, fun w => .bne (rsOf w) (rtOf w) (imm16Of w)⟩,
    ⟨0x0000001A, 0xFC00FFFF, fun w => .div (rsOf w) (rtOf w)⟩,
    ⟨0x0000001B, 0xFC00FFFF, fun w => .divu (rsOf w) (rtOf w)⟩,
    ⟨0x08000000, 0xFC000000, fun w => .j (target26Of w)⟩,
    ⟨0x0C000000, 0xFC000000, fun w => .jal (target26Of w)⟩,
    ⟨0x00000008, 0xFC1FFFFF, fun w => .jr (rsOf w)⟩,
    ⟨0x80000000, 0xFC000000, fun w => .lb (rtOf w) (imm16Of w) (rsOf w)⟩,
    ⟨0x3C000000, 0xFC000000, fun w => .lui (rtOf w) (imm16Of w)⟩,
    ⟨0x8C000000, 0xFC000000, fun w => .lw (rtOf w) (imm16Of w) (rsOf w)⟩,
    ⟨0x00000010, 0xFFFF07FF, fun w => .mfhi (rdOf w)⟩ ] ++
  [ ⟨0x00000012, 0xFFFF07FF, fun w => .mflo (rdOf w)⟩,
    ⟨0x00000018, 0xFC00FFFF, fun w => .mult (rsOf w) (rtOf w)⟩,
    ⟨0x00000019, 0xFC00FFFF, fun w => .multu (rsOf w) (rtOf w)⟩,
    ⟨0x00000000, 0xFFFFFFFF, fun _ => .noop⟩,
    ⟨0x00000025, 0xFC0007FF, fun w => .or (rdOf w) (rsOf w) (rtOf w)⟩,
    ⟨0x34000000, 0xFC000000, fun w => .ori (rtOf w) (rsOf w) (imm16Of w)⟩,
    ⟨0xA0000000, 0xFC000000, fun w => .sb (rtOf w) (imm16Of w) (rsOf w)⟩,
    ⟨0x00000000, 0xFC00003F, fun w => .sll (rdOf w) (rtOf w) (shamtOf w)⟩,
    ⟨0x00000004, 0xFC00003F, fun w => .sllv (rdOf w) (rtOf w) (rsOf w)⟩,
    ⟨0x0000002A, 0xFC0007FF, fun w => .slt (rdOf w) (rsOf w) (rtOf w)⟩,
    ⟨0x28000000, 0xFC000000, fun w => .slti (rtOf w) (rsOf w) (imm16Of w)⟩,
    ⟨0x2C000000, 0xFC000000, fun w => .sltiu (rtOf w) (rsOf w) (imm16Of w)⟩,
    ⟨0x0000002B, 0xFC0007FF, fun w => .sltu (rdOf w) (rsOf w) (rtOf w)⟩,
    ⟨0x00000003, 0xFC00003F, fun w => .sra (rdOf w) (rtOf w) (shamtOf w)⟩,
    ⟨0x00000002, 0xFC00003F, fun w => .srl (rdOf w) (rtOf w) (shamtOf w)⟩,
    ⟨0x00000006, 0xFC0007FF, fun w => .srlv (rdOf w) (rtOf w) (rsOf w)⟩,
    ⟨0x00000022, 0xFC0007FF, fun w => .sub (rdOf w) (rsOf w) (rtOf w)⟩,
    ⟨0x00000023, 0xFC0007FF, fun w => .subu (rdOf w) (rsOf w) (rtOf w)⟩,
    ⟨0xAC000000, 0xFC000000, fun w => .sw (rtOf w) (imm16Of w) (rsOf w)⟩,
    ⟨0x0000000C, 0xFC00003F, fun w => .syscall (syscallCodeOf w)⟩,
    ⟨0x00000026, 0xFC00003F, fun w => .xor (rdOf w) (rsOf w) (rtOf w)⟩,
    ⟨0x38000000, 0xFC000000, fun w => .xori (rtOf w) (rsOf w) (imm16Of w)⟩ ]

/-- R69 word for word: the first row of the table that the word selects, with its operands; none when no row does. -/
def tableDecode (w : Word) : Option Instr :=
  (opcodeTable.find? (·.selects w)).map (·.build w)

end Sys2Proof
end

