-- ==== Sys2Proof/Machine/Defaults.lean ====
section
/-! DEFINITION. The values `State.reset` takes for what a launch must choose (spec/10_state.md R32,
spec/00_scope.md R4): `ENTRY`, `BYTE_ORDER` and `MEM_MAP` have none in the spec (DESIGN CHOICE, log 1, 2, 3), the
policies have the spec's defaults. -/

namespace Sys2Proof.Machine

/-- `ENTRY` at reset (R231: OPEN; the number is the one of the spec's examples). DESIGN CHOICE, log 3. -/
def entryAtReset : Word := 0x00400000

/-- `MEM_MAP` at reset (R47: OPEN). DESIGN CHOICE, log 2: instructions may be fetched from the lowest 256 MiB, data may
be read and written everywhere. -/
def memMapAtReset : List Config.MapEntry :=
  [ { kind := .fetch, size := .word, first := 0x00000000, last := 0x0FFFFFFF },
    { kind := .read,  size := .byte, first := 0x00000000, last := 0xFFFFFFFF },
    { kind := .read,  size := .word, first := 0x00000000, last := 0xFFFFFFFF },
    { kind := .write, size := .byte, first := 0x00000000, last := 0xFFFFFFFF },
    { kind := .write, size := .word, first := 0x00000000, last := 0xFFFFFFFF } ]

/-- The parameters at reset: the spec's defaults of R4, and the two choices above with big-endian order (log 1). -/
def paramsAtReset : Config.Params where
  byteOrder       := .big
  memMap          := memMapAtReset
  envSyscall      := .halt
  smc             := .refuse
  multHi          := .unspecified
  logicalImmExt   := .zero
  lbExt           := .sign
  delaySlotBranch := .fault
  linkConditional := true

end Sys2Proof.Machine
end

