-- ==== Sys2Proof/Machine/State.lean ====
section
/-! DEFINITION. The state of the machine (spec/10_state.md R20), its fault record (spec/60_exceptions.md R204, R207),
the reasons a step can stop, and the state after reset. Plain data throughout. -/

namespace Sys2Proof.Machine

/-- The memory `MEM` (R30): the bytes that have a value, addresses strictly rising. An address that is not listed holds
no value (R32 "unspecified", log 6). -/
abbrev Memory := List Host.Cell

/-- The fault record `(E, info)` of R204: the ten names of R207, each with the information that table lists for it. -/
inductive FaultRecord where
  /-- Signed overflow of ADD, ADDI, SUB (R200). -/
  | integerOverflow
  /-- A fetch with `pc[1:0]` not 0 (R202). -/
  | addressErrorFetch (pc : Word)
  /-- LW at an address that is not a multiple of 4 (R202). -/
  | addressErrorLoad (addr : Word)
  /-- SW at an address that is not a multiple of 4 (R202). -/
  | addressErrorStore (addr : Word)
  /-- `MEM_MAP` refuses the fetch (R203). -/
  | busErrorFetch (pc : Word)
  /-- `MEM_MAP` refuses the read of LB or LW (R203). -/
  | busErrorLoad (addr : Word)
  /-- `MEM_MAP` refuses the write of SB or SW (R203). -/
  | busErrorStore (addr : Word)
  /-- Under `SMC = refuse`, SB or SW would write a byte of the program text (R203). -/
  | storeToText (addr : Word)
  /-- The fetched word matches no row of the opcode table (R205). -/
  | reservedInstruction (w : Word)
  /-- A control transfer while `npc` is not `pc + 4`, under `DELAY_SLOT_BRANCH = fault` (R206). -/
  | unpredictableDelaySlot (w : Word)
  deriving DecidableEq, Repr

/-- The whole state of the machine (R20), and three fields of the model's own: `params`, `halted` and `draws`. -/
structure State where
  /-- The parameters of R4, constant over a run; no step writes them (log 7). -/
  params : Config.Params
  /-- The general registers `x[0]` to `x[31]` (R21). -/
  x : Vector Word 32
  /-- `$HI` (R23). -/
  hi : Word
  /-- `$LO` (R23). -/
  lo : Word
  /-- The address of the instruction being executed (R24). -/
  pc : Word
  /-- The address of the instruction that will be executed after it (R24). -/
  npc : Word
  /-- `MEM` (R30). -/
  mem : Memory
  /-- The fault record, empty while the machine runs (R20, R204). -/
  fault : Option FaultRecord
  /-- The word of the SYSCALL at which the environment answered `halt` (R181, R182; the model's own, log 10). -/
  halted : Option Word
  /-- How many free values have been drawn for `hi` after a multiplication (R148; the model's own, log 12). -/
  draws : Nat
  deriving DecidableEq, Repr

/-- The reasons a step stops without a next state. -/
inductive Fault where
  /-- Raised by `step` where the fault record is not empty: the machine takes no further step (R204). Safe: nothing is
  claimed of what hardware does after a fault. -/
  | terminal (r : FaultRecord)
  /-- Raised by `step` after a SYSCALL that the environment answered with `halt`: the run has ended with outcome
  `Syscall` (R182). Safe: nothing is claimed of what follows. -/
  | runEnded (w : Word)
  /-- Raised by a fetch at, or a load from, an address with a byte that nothing has written and the launch did not
  give: `ReadUnspecified` of R233, treatment (a). Safe: the value the hardware would read is never used. -/
  | readUnspecified (addr : Word)
  deriving DecidableEq, Repr

/-- The reasons an instruction is refused. -/
inductive Refusal where
  /-- Raised by `exec` for an instruction whose meaning is not written yet. No arm of `exec` raises it now. Safe. -/
  | notModelled (mnemonic : String)
  deriving DecidableEq, Repr

/-- The outcome of a step, or of an instruction. -/
abbrev Result := Host.Outcome State Fault Refusal

/-- The machine right after reset: the launch state of R32 with the values the spec gives (`x[0]` = 0, `npc` = `ENTRY`
+ 4, `fault` empty) and, for the rest, those of log 1 to 7, 10 and 12. -/
def State.reset : State where
  params := paramsAtReset
  x      := Vector.replicate 32 0
  hi     := 0
  lo     := 0
  pc     := entryAtReset
  npc    := entryAtReset + 4
  mem    := []
  fault  := none
  halted := none
  draws  := 0

end Sys2Proof.Machine
end

