-- ==== Sys2Proof/Machine/Ops.lean ====
section
/-! DEFINITION. The operations every meaning is written with: reading and writing a register (spec/10_state.md R21),
`advance_pc` (R25), `raise` (spec/60_exceptions.md R204), and memory (spec/20_memory.md R40 to R47, R54). -/

namespace Sys2Proof.Machine

/-! ## Registers and program counters -/

/-- `x[i]` (R7, R21): register 0 reads 0. -/
def readReg (s : State) (i : RegNum) : Word :=
  if i = 0#5 then 0#32 else s.x[i.toNat]'i.isLt

/-- `x[i] <- v` (R7, R21): a write to register 0 has no effect. -/
def writeReg (s : State) (i : RegNum) (v : Word) : State :=
  if i = 0#5 then s else { s with x := s.x.set i.toNat v i.isLt }

/-- `hi <- h; lo <- l` (R23). -/
def writeHiLo (s : State) (h l : Word) : State :=
  { s with hi := h, lo := l }

/-- The link register of JAL, BGEZAL and BLTZAL (R132). -/
def linkReg : RegNum := 31#5

/-- `advance_pc(k)` (R25): `pc <- npc; npc <- npc + k`, the sum modulo 2^32. -/
def advancePc (s : State) (k : Word) : State :=
  { s with pc := s.npc, npc := s.npc + k }

/-- `pc <- npc; npc <- t`, the closing pair of J, JAL and JR (R25). -/
def jumpTo (s : State) (t : Word) : State :=
  { s with pc := s.npc, npc := t }

/-- The end of an instruction that writes the general register `i` and nothing else: `x[i] <- v; advance_pc(4)`. -/
def finishWrite (s : State) (i : RegNum) (v : Word) : Result :=
  .next (advancePc (writeReg s i v) 4)

/-! ## Taking an exception -/

/-- `raise E(info)` (R204): the fault record is written and nothing else. There is no vector, no saved pc, no mode to
change and no return (R210), so this is the whole of taking an exception. -/
def raise (r : FaultRecord) (s : State) : Result :=
  .next { s with fault := some r }

/-! ## Bytes of memory -/

/-- What an address that is not listed holds: no value (R32, log 6). -/
def unlistedByte (_addr : Nat) : Option Byte := none

/-- The byte at an address, if it has a value. -/
def memByte : Memory → Nat → Option Byte
  | [], a => unlistedByte a
  | (k, b) :: m, a => if k = a then some b else memByte m a

/-- The memory with the address `a` holding `b`, in its place among rising addresses. -/
def memInsert : Memory → Nat → Byte → Memory
  | [], a, b => [(a, b)]
  | (k, c) :: m, a, b =>
    if a < k then (a, b) :: (k, c) :: m
    else if a = k then (a, b) :: m
    else (k, c) :: memInsert m a b

/-- The memory with the address `a` not listed. -/
def memErase : Memory → Nat → Memory
  | [], _ => []
  | (k, c) :: m, a => if k = a then m else (k, c) :: memErase m a

/-- `MEM[a] <- b`, keeping the canonical form: writing what an unlisted address reads as removes the entry. -/
def memSet (m : Memory) (a : Nat) (b : Byte) : Memory :=
  if unlistedByte a = some b then memErase m a else memInsert m a b

/-- The canonical form: addresses strictly rising and below 2^32, and no entry equal to what an unlisted address
reads as. -/
def Memory.wf (m : Memory) : Bool :=
  decide (m.Pairwise fun c d => c.1 < d.1) &&
    m.all fun c => decide (c.1 < 2 ^ 32) && decide (unlistedByte c.1 ≠ some c.2)

/-- The memory that a list of cells describes, a later cell winning over an earlier one and addresses from 2^32 up
ignored: what a launch or an environment's answer hands over (R32, R181, log 19). -/
def memOfCells (cells : List Host.Cell) : Memory :=
  cells.foldl (fun m c => if c.1 < 2 ^ 32 then memSet m c.1 c.2 else m) []

/-! ## The address map and the program text -/

/-- `MEM_MAP` admits an access (R47). -/
def admits (p : Config.Params) (k : Config.AccessKind) (sz : Config.AccessSize) (addr : Word) : Bool :=
  p.memMap.any fun e =>
    e.kind == k && e.size == sz && decide (e.first ≤ addr.toNat) && decide (addr.toNat ≤ e.last)

/-- `addr[1:0] = 0` (R42). -/
def aligned (addr : Word) : Bool := addr.extractLsb' 0 2 == 0

/-- The address of the aligned word that holds the byte at `addr`. -/
def wordBase (addr : Word) : Word := addr &&& 0xFFFFFFFC

/-- The byte at `addr` lies in the program text: the set of addresses from which the run may fetch (R54), that is the
bytes of the words whose fetch `MEM_MAP` admits (DEDUCED, log 8). -/
def inText (p : Config.Params) (addr : Word) : Bool :=
  admits p .fetch .word (wordBase addr)

/-- Any of the bytes of a write lies in the program text (R44). -/
def touchesText (p : Config.Params) (sz : Config.AccessSize) (addr : Word) : Bool :=
  match sz with
  | .byte => inText p addr
  | .word => inText p addr || inText p (addr + 1) || inText p (addr + 2) || inText p (addr + 3)

/-! ## `MemRead` and `MemWrite` (R43, R44) -/

/-- What a read of memory gives: the value, one of the ten faults, or the model's stop at an unspecified byte. -/
inductive ReadResult (α : Type) where
  | value (v : α)
  | raises (r : FaultRecord)
  | unspecified (addr : Word)
  deriving DecidableEq, Repr

/-- The four bytes at `addr`, assembled by `BYTE_ORDER` (R43); nothing where one of them has no value. -/
def memWord (o : Config.ByteOrder) (m : Memory) (addr : Word) : Option Word :=
  match memByte m addr.toNat, memByte m (addr.toNat + 1), memByte m (addr.toNat + 2), memByte m (addr.toNat + 3) with
  | some b0, some b1, some b2, some b3 => some (joinBytes o b0 b1 b2 b3)
  | _, _, _, _ => none

/-- `MemRead(addr, 1)` of a load (R43). -/
def readByte (s : State) (addr : Word) : ReadResult Byte :=
  if admits s.params .read .byte addr then
    match memByte s.mem addr.toNat with
    | some b => .value b
    | none => .unspecified addr
  else .raises (.busErrorLoad addr)

/-- `MemRead(addr, 4)` of a load (R43). -/
def readWord (s : State) (addr : Word) : ReadResult Word :=
  if aligned addr then
    if admits s.params .read .word addr then
      match memWord s.params.byteOrder s.mem addr with
      | some v => .value v
      | none => .unspecified addr
    else .raises (.busErrorLoad addr)
  else .raises (.addressErrorLoad addr)

/-- `MemRead(pc, 4)` of a fetch (R26, R43, R55). -/
def fetchWord (s : State) : ReadResult Word :=
  if aligned s.pc then
    if admits s.params .fetch .word s.pc then
      match memWord s.params.byteOrder s.mem s.pc with
      | some v => .value v
      | none => .unspecified s.pc
    else .raises (.busErrorFetch s.pc)
  else .raises (.addressErrorFetch s.pc)

/-- The fault of a write that passed its alignment check, if it has one (R44): the map, then the program text. -/
def writeFault (p : Config.Params) (sz : Config.AccessSize) (addr : Word) : Option FaultRecord :=
  if admits p .write sz addr then
    if p.smc = .refuse ∧ touchesText p sz addr then some (.storeToText addr) else none
  else some (.busErrorStore addr)

/-- The bytes of a word written at `addr`, all together (R44). -/
def memSetWord (o : Config.ByteOrder) (m : Memory) (addr v : Word) : Memory :=
  let b := wordBytes o v
  memSet (memSet (memSet (memSet m addr.toNat b[0]) (addr.toNat + 1) b[1]) (addr.toNat + 2) b[2])
    (addr.toNat + 3) b[3]

/-- `MemWrite(addr, 1, v)` (R44): the memory after it, or the fault. -/
def writeByte (s : State) (addr v : Word) : Except FaultRecord State :=
  match writeFault s.params .byte addr with
  | some r => .error r
  | none => .ok { s with mem := memSet s.mem addr.toNat (v.extractLsb' 0 8) }

/-- `MemWrite(addr, 4, v)` (R44). -/
def writeWord (s : State) (addr v : Word) : Except FaultRecord State :=
  if aligned addr then
    match writeFault s.params .word addr with
    | some r => .error r
    | none => .ok { s with mem := memSetWord s.params.byteOrder s.mem addr v }
  else .error (.addressErrorStore addr)

/-- The end of a load (R150): the value goes to `x[rt]` and the pc advances, or the load raises, or stops at an
unspecified byte (R233). -/
def finishLoad {α : Type} (s : State) (rt : RegNum) (widen : α → Word) : ReadResult α → Result
  | .value v => finishWrite s rt (widen v)
  | .raises r => raise r s
  | .unspecified addr => .fault (.readUnspecified addr)

/-- The end of a store (R150): the pc advances, or the store raises and nothing else changes. -/
def finishStore (s : State) : Except FaultRecord State → Result
  | .ok s' => .next (advancePc s' 4)
  | .error r => raise r s

/-! ## The environment call (R181) -/

/-- What the environment receives: the word and the state it is called in. -/
def envView (w : Word) (s : State) : Config.EnvView where
  w := w
  x := s.x
  hi := s.hi
  lo := s.lo
  pc := s.pc
  npc := s.npc
  mem := s.mem

/-- What the environment answers under the setting of `ENV_SYSCALL`. -/
def envAnswer (w : Word) (s : State) : Config.EnvAnswer :=
  match s.params.envSyscall with
  | .halt => .halt
  | .environment => Config.envSyscall (envView w s)

/-- The state after an answer: `halt` ends the run (R182), `resume` replaces the general registers but `x[0]`, `hi`,
`lo` and the memory (R181). -/
def applyAnswer (w : Word) (s : State) : Config.EnvAnswer → State
  | .halt => { s with halted := some w }
  | .resume x hi lo mem => { s with x := x.set 0 0, hi := hi, lo := lo, mem := memOfCells mem }

/-- `environment_call()` (R180, R181), in the state after `advance_pc(4)`. -/
def environmentCall (w : Word) (s : State) : State :=
  applyAnswer w s (envAnswer w s)

end Sys2Proof.Machine
end

