-- ==== Sys2Proof/Machine/Operands.lean ====
section
/-! DEFINITION. The operand forms of the spec: how an immediate is widened (spec/30_encoding.md R66), an effective
address (spec/20_memory.md R45), a branch displacement, a jump target and a link value (spec/42_branch_jump.md R120,
R129, R132), and the amount of a shift by a register (spec/45_shift.md R160). -/

namespace Sys2Proof.Machine

/-- `sext_32(imm16)` (R6, R66). -/
def signImm (imm : Imm16) : Word := imm.signExtend 32

/-- A short value widened by a policy of R4. -/
def widen {n : Nat} (e : Config.Extension) (v : BitVec n) : Word :=
  match e with
  | .zero => v.setWidth 32
  | .sign => v.signExtend 32

/-- The immediate of ANDI, ORI and XORI, by `LOGICAL_IMM_EXT` (R66, R110). -/
def logicalImm (s : State) (imm : Imm16) : Word := widen s.params.logicalImmExt imm

/-- The byte LB loads, by `LB_EXT` (R151). -/
def loadedByte (s : State) (b : Byte) : Word := widen s.params.lbExt b

/-- `imm16 ++ 0x0000`, the value of LUI: `imm16 << 16`, 32 bits (R117). -/
def upperImm (imm : Imm16) : Word := imm.setWidth 32 <<< 16

/-- The effective address of LB, LW, SB and SW: `x[rs] + sext_32(imm16)` modulo 2^32 (R45). -/
def effectiveAddress (s : State) (rs : RegNum) (offset : Imm16) : Word :=
  readReg s rs + signImm offset

/-- The argument of `advance_pc` in a taken branch: `sext_32(imm16) << 2` (R120). -/
def branchDisplacement (offset : Imm16) : Word := signImm offset <<< 2

/-- The target of J and JAL: the region of the delay slot's address and `target26 << 2` (R129). -/
def jumpTarget (slot : Word) (target : Target26) : Word :=
  (slot &&& 0xF0000000) ||| (target.setWidth 32 <<< 2)

/-- The link value `pc + 8` (R132). -/
def linkValue (s : State) : Word := s.pc + 8

/-- The amount of a shift by a register: its low 5 bits (R160). -/
def shiftAmount (v : Word) : Nat := (v.extractLsb' 0 5).toNat

/-! ## Values computed from operands -/

/-- `v << n` (R162, R163). -/
def shiftLeft (v : Word) (n : Nat) : Word := v <<< n

/-- `v >> n`, zeroes shifted in (R165, R166). -/
def shiftRightLogical (v : Word) (n : Nat) : Word := v >>> n

/-- `v >> n`, the sign bit shifted in (R164). -/
def shiftRightArithmetic (v : Word) (n : Nat) : Word := v.sshiftRight n

/-- Quotient and remainder of signed readings, truncated toward zero (R141, D30): `(hi, lo)`. -/
def signedDivision (a b : Word) : Word × Word :=
  let q := a.toInt.tdiv b.toInt
  (BitVec.ofInt 32 (a.toInt - q * b.toInt), BitVec.ofInt 32 q)

/-- Quotient and remainder of unsigned readings (R142): `(hi, lo)`. -/
def unsignedDivision (a b : Word) : Word × Word :=
  let q := a.toNat / b.toNat
  (BitVec.ofNat 32 (a.toNat - q * b.toNat), BitVec.ofNat 32 q)

/-- The exact product of MULT or MULTU (R143, R144). -/
def product (k : Config.MultKind) (a b : Word) : Int :=
  match k with
  | .mult => a.toInt * b.toInt
  | .multu => (a.toNat : Int) * (b.toNat : Int)

/-- Bits 63:32 of the product (R148, setting `high_word`): `floor(p / 2^32) mod 2^32`. -/
def productHigh (k : Config.MultKind) (a b : Word) : Word :=
  BitVec.ofInt 32 ((product k a b).fdiv (2 ^ 32))

/-- The low 32 bits of the product (R143, R144). -/
def productLow (k : Config.MultKind) (a b : Word) : Word :=
  BitVec.ofInt 32 (product k a b)

/-- What MULT and MULTU leave in `hi`, by `MULT_HI` (R148): under `unspecified` a free value, drawn anew each time. -/
def multHi (k : Config.MultKind) (a b : Word) (s : State) : Word :=
  match s.params.multHi with
  | .unspecified => Config.multHiDraw s.draws
  | .unchanged => s.hi
  | .highWord => productHigh k a b

/-- The free values drawn after a multiplication: one more under `unspecified`, else as many as before (log 12). -/
def multDraws (s : State) : Nat :=
  match s.params.multHi with
  | .unspecified => s.draws + 1
  | .unchanged | .highWord => s.draws

end Sys2Proof.Machine
end

