-- ==== Sys2Proof/Machine/Flags.lean ====
section
/-! DEFINITION. The machine has no flags (spec/10_state.md R28). What other machines keep in flags is computed here as
conditions on operands: signed overflow (spec/40_arithmetic.md R100), the corners of division
(spec/43_muldiv.md R147), the comparisons (spec/46_compare.md R170), the branch conditions
(spec/42_branch_jump.md R120). -/

namespace Sys2Proof.Machine

/-- An exact result outside -2^31 to 2^31 - 1: signed overflow (R100). -/
def overflows (exact : Int) : Bool := decide (exact < -2 ^ 31 ∨ exact > 2 ^ 31 - 1)

/-- `s(a) + s(b)` overflows (R101, R102). -/
def addOverflows (a b : Word) : Bool := overflows (a.toInt + b.toInt)

/-- `s(a) - s(b)` overflows (R105). -/
def subOverflows (a b : Word) : Bool := overflows (a.toInt - b.toInt)

/-- The corners of DIV: a zero divisor, or -2^31 / -1 (R141, R147). -/
def divCornerCase (a b : Word) : Bool :=
  decide (b.toInt = 0 ∨ (a.toInt = -2 ^ 31 ∧ b.toInt = -1))

/-- The corner of DIVU: a zero divisor (R142, R147). -/
def divuCornerCase (b : Word) : Bool := decide (b.toNat = 0)

/-- `s(a) < s(b)` (R171, R172). -/
def lessSigned (a b : Word) : Bool := decide (a.toInt < b.toInt)

/-- `u(a) < u(b)` (R173, R174). -/
def lessUnsigned (a b : Word) : Bool := decide (a.toNat < b.toNat)

/-- The value a comparison writes: 1 or 0 (R170). -/
def boolWord (c : Bool) : Word := if c then 1 else 0

/-- `s(a) >= 0` (R122, R123). -/
def geZero (a : Word) : Bool := decide (0 ≤ a.toInt)

/-- `s(a) > 0` (R124). -/
def gtZero (a : Word) : Bool := decide (0 < a.toInt)

/-- `s(a) <= 0` (R125). -/
def leZero (a : Word) : Bool := decide (a.toInt ≤ 0)

/-- `s(a) < 0` (R126, R127). -/
def ltZero (a : Word) : Bool := decide (a.toInt < 0)

end Sys2Proof.Machine
end

