-- ==== Sys2Proof/Machine/Arithmetic.lean ====
section
/-! DEFINITION. Addition and subtraction (spec/40_arithmetic.md R100 to R106). -/

namespace Sys2Proof.Machine

/-- ADD (R101): raises on signed overflow, before any write. -/
def execAdd (rd rs rt : RegNum) (s : State) : Result :=
  let a := readReg s rs
  let b := readReg s rt
  if addOverflows a b then raise .integerOverflow s else finishWrite s rd (a + b)

/-- ADDI (R102): raises on signed overflow, before any write. -/
def execAddi (rt rs : RegNum) (imm : Imm16) (s : State) : Result :=
  let a := readReg s rs
  let b := signImm imm
  if addOverflows a b then raise .integerOverflow s else finishWrite s rt (a + b)

/-- ADDIU (R103): the immediate is sign-extended, nothing is raised. -/
def execAddiu (rt rs : RegNum) (imm : Imm16) (s : State) : Result :=
  finishWrite s rt (readReg s rs + signImm imm)

/-- ADDU (R104). -/
def execAddu (rd rs rt : RegNum) (s : State) : Result :=
  finishWrite s rd (readReg s rs + readReg s rt)

/-- SUB (R105): raises on signed overflow, before any write. -/
def execSub (rd rs rt : RegNum) (s : State) : Result :=
  let a := readReg s rs
  let b := readReg s rt
  if subOverflows a b then raise .integerOverflow s else finishWrite s rd (a - b)

/-- SUBU (R106). -/
def execSubu (rd rs rt : RegNum) (s : State) : Result :=
  finishWrite s rd (readReg s rs - readReg s rt)

end Sys2Proof.Machine
end

