-- ==== Sys2Proof/Machine/BranchJump.lean ====
section
/-! DEFINITION. Branches and jumps (spec/42_branch_jump.md R120 to R135). The check of R133 on a control transfer in
the delay slot of a taken one stands in Machine/Fetch.lean, before the instruction executes (spec/10_state.md R26). -/

namespace Sys2Proof.Machine

/-- The `advance_pc` of a conditional branch (R120). -/
def branch (s : State) (taken : Bool) (offset : Imm16) : State :=
  advancePc s (if taken then branchDisplacement offset else 4)

/-- The link of BGEZAL and BLTZAL (R123, R127): `x[31] <- pc + 8` when the branch is taken, and always under
`LINK_CONDITIONAL = false`. -/
def branchLink (s : State) (taken : Bool) : State :=
  if taken || !s.params.linkConditional then writeReg s linkReg (linkValue s) else s

/-- BEQ (R121). -/
def execBeq (rs rt : RegNum) (offset : Imm16) (s : State) : Result :=
  .next (branch s (readReg s rs == readReg s rt) offset)

/-- BGEZ (R122). -/
def execBgez (rs : RegNum) (offset : Imm16) (s : State) : Result :=
  .next (branch s (geZero (readReg s rs)) offset)

/-- BGEZAL (R123): the test reads `x[rs]` before the link is written. -/
def execBgezal (rs : RegNum) (offset : Imm16) (s : State) : Result :=
  let taken := geZero (readReg s rs)
  .next (branch (branchLink s taken) taken offset)

/-- BGTZ (R124). -/
def execBgtz (rs : RegNum) (offset : Imm16) (s : State) : Result :=
  .next (branch s (gtZero (readReg s rs)) offset)

/-- BLEZ (R125). -/
def execBlez (rs : RegNum) (offset : Imm16) (s : State) : Result :=
  .next (branch s (leZero (readReg s rs)) offset)

/-- BLTZ (R126). -/
def execBltz (rs : RegNum) (offset : Imm16) (s : State) : Result :=
  .next (branch s (ltZero (readReg s rs)) offset)

/-- BLTZAL (R127): the test reads `x[rs]` before the link is written. -/
def execBltzal (rs : RegNum) (offset : Imm16) (s : State) : Result :=
  let taken := ltZero (readReg s rs)
  .next (branch (branchLink s taken) taken offset)

/-- BNE (R128). -/
def execBne (rs rt : RegNum) (offset : Imm16) (s : State) : Result :=
  .next (branch s (readReg s rs != readReg s rt) offset)

/-- J (R129): the region is that of the delay slot's address, the `pc` just copied from `npc`. -/
def execJ (target : Target26) (s : State) : Result :=
  .next (jumpTo s (jumpTarget s.npc target))

/-- JAL (R130): the link uses the address of the JAL itself. -/
def execJal (target : Target26) (s : State) : Result :=
  .next (jumpTo (writeReg s linkReg (linkValue s)) (jumpTarget s.npc target))

/-- JR (R131): all 32 bits of the register, no check here (R134). -/
def execJr (rs : RegNum) (s : State) : Result :=
  .next (jumpTo s (readReg s rs))

end Sys2Proof.Machine
end

