-- ==== Sys2Proof/Machine/Compare.lean ====
section
/-! DEFINITION. Set on less than (spec/46_compare.md R170 to R174). -/

namespace Sys2Proof.Machine

/-- SLT (R171). -/
def execSlt (rd rs rt : RegNum) (s : State) : Result :=
  finishWrite s rd (boolWord (lessSigned (readReg s rs) (readReg s rt)))

/-- SLTI (R172). -/
def execSlti (rt rs : RegNum) (imm : Imm16) (s : State) : Result :=
  finishWrite s rt (boolWord (lessSigned (readReg s rs) (signImm imm)))

/-- SLTIU (R173): the immediate is sign-extended, then compared as unsigned. -/
def execSltiu (rt rs : RegNum) (imm : Imm16) (s : State) : Result :=
  finishWrite s rt (boolWord (lessUnsigned (readReg s rs) (signImm imm)))

/-- SLTU (R174). -/
def execSltu (rd rs rt : RegNum) (s : State) : Result :=
  finishWrite s rd (boolWord (lessUnsigned (readReg s rs) (readReg s rt)))

end Sys2Proof.Machine
end

