-- ==== Sys2Proof/Machine/LoadStore.lean ====
section
/-! DEFINITION. Loads and stores (spec/44_load_store.md R150 to R154). -/

namespace Sys2Proof.Machine

/-- LB (R151): one byte, widened by `LB_EXT`. -/
def execLb (rt : RegNum) (offset : Imm16) (rs : RegNum) (s : State) : Result :=
  finishLoad s rt (loadedByte s) (readByte s (effectiveAddress s rs offset))

/-- LW (R152): four bytes at an aligned address, in `BYTE_ORDER`. -/
def execLw (rt : RegNum) (offset : Imm16) (rs : RegNum) (s : State) : Result :=
  finishLoad s rt id (readWord s (effectiveAddress s rs offset))

/-- SB (R153): the low byte of `x[rt]`. -/
def execSb (rt : RegNum) (offset : Imm16) (rs : RegNum) (s : State) : Result :=
  finishStore s (writeByte s (effectiveAddress s rs offset) (readReg s rt))

/-- SW (R154): `x[rt]` at an aligned address, in `BYTE_ORDER`. -/
def execSw (rt : RegNum) (offset : Imm16) (rs : RegNum) (s : State) : Result :=
  finishStore s (writeWord s (effectiveAddress s rs offset) (readReg s rt))

end Sys2Proof.Machine
end

