-- ==== Sys2Proof/Machine/Logical.lean ====
section
/-! DEFINITION. Bitwise logic and load upper immediate (spec/41_logical.md R110 to R117). -/

namespace Sys2Proof.Machine

/-- AND (R111). -/
def execAnd (rd rs rt : RegNum) (s : State) : Result :=
  finishWrite s rd (readReg s rs &&& readReg s rt)

/-- ANDI (R112). -/
def execAndi (rt rs : RegNum) (imm : Imm16) (s : State) : Result :=
  finishWrite s rt (readReg s rs &&& logicalImm s imm)

/-- OR (R113). -/
def execOr (rd rs rt : RegNum) (s : State) : Result :=
  finishWrite s rd (readReg s rs ||| readReg s rt)

/-- ORI (R114). -/
def execOri (rt rs : RegNum) (imm : Imm16) (s : State) : Result :=
  finishWrite s rt (readReg s rs ||| logicalImm s imm)

/-- XOR (R115). -/
def execXor (rd rs rt : RegNum) (s : State) : Result :=
  finishWrite s rd (readReg s rs ^^^ readReg s rt)

/-- XORI (R116). -/
def execXori (rt rs : RegNum) (imm : Imm16) (s : State) : Result :=
  finishWrite s rt (readReg s rs ^^^ logicalImm s imm)

/-- LUI (R117). -/
def execLui (rt : RegNum) (imm : Imm16) (s : State) : Result :=
  finishWrite s rt (upperImm imm)

end Sys2Proof.Machine
end

