-- ==== Sys2Proof/Machine/MulDiv.lean ====
section
/-! DEFINITION. Multiply, divide and the moves from HI and LO (spec/43_muldiv.md R140 to R148). -/

namespace Sys2Proof.Machine

/-- `(hi, lo) <- p; advance_pc(4)`, the end of a division (R141, R142). -/
def finishDivision (s : State) (p : Word × Word) : Result :=
  .next (advancePc (writeHiLo s p.1 p.2) 4)

/-- The effect of a multiplication (R143, R144): `lo` gets the low word of the product, `hi` what `MULT_HI` says. -/
def multiply (k : Config.MultKind) (a b : Word) (s : State) : State :=
  { advancePc (writeHiLo s (multHi k a b s) (productLow k a b)) 4 with draws := multDraws s }

/-- DIV (R141); a corner gives the free pair `DIV_CORNER` (R147). -/
def execDiv (rs rt : RegNum) (s : State) : Result :=
  let a := readReg s rs
  let b := readReg s rt
  finishDivision s (if divCornerCase a b then Config.divCorner .div a b else signedDivision a b)

/-- DIVU (R142); a zero divisor gives the free pair `DIV_CORNER` (R147). -/
def execDivu (rs rt : RegNum) (s : State) : Result :=
  let a := readReg s rs
  let b := readReg s rt
  finishDivision s (if divuCornerCase b then Config.divCorner .divu a b else unsignedDivision a b)

/-- MULT (R143). -/
def execMult (rs rt : RegNum) (s : State) : Result :=
  .next (multiply .mult (readReg s rs) (readReg s rt) s)

/-- MULTU (R144). -/
def execMultu (rs rt : RegNum) (s : State) : Result :=
  .next (multiply .multu (readReg s rs) (readReg s rt) s)

/-- MFHI (R145). -/
def execMfhi (rd : RegNum) (s : State) : Result :=
  finishWrite s rd s.hi

/-- MFLO (R146). -/
def execMflo (rd : RegNum) (s : State) : Result :=
  finishWrite s rd s.lo

end Sys2Proof.Machine
end

