-- ==== Sys2Proof/Machine/Shift.lean ====
section
/-! DEFINITION. Shifts and the no-operation (spec/45_shift.md R160 to R166). -/

namespace Sys2Proof.Machine

/-- NOOP (R161): `advance_pc(4)` and nothing else. -/
def execNoop (s : State) : Result :=
  .next (advancePc s 4)

/-- SLL (R162). -/
def execSll (rd rt : RegNum) (shamt : Shamt) (s : State) : Result :=
  finishWrite s rd (shiftLeft (readReg s rt) shamt.toNat)

/-- SLLV (R163): the value is `x[rt]`, the amount the low 5 bits of `x[rs]`. -/
def execSllv (rd rt rs : RegNum) (s : State) : Result :=
  finishWrite s rd (shiftLeft (readReg s rt) (shiftAmount (readReg s rs)))

/-- SRA (R164). -/
def execSra (rd rt : RegNum) (shamt : Shamt) (s : State) : Result :=
  finishWrite s rd (shiftRightArithmetic (readReg s rt) shamt.toNat)

/-- SRL (R165). -/
def execSrl (rd rt : RegNum) (shamt : Shamt) (s : State) : Result :=
  finishWrite s rd (shiftRightLogical (readReg s rt) shamt.toNat)

/-- SRLV (R166): the value is `x[rt]`, the amount the low 5 bits of `x[rs]`. -/
def execSrlv (rd rt rs : RegNum) (s : State) : Result :=
  finishWrite s rd (shiftRightLogical (readReg s rt) (shiftAmount (readReg s rs)))

end Sys2Proof.Machine
end

