-- ==== Sys2Proof/Machine/System.lean ====
section
/-! DEFINITION. SYSCALL and the environment call (spec/47_system.md R180, R181). -/

namespace Sys2Proof.Machine

/-- SYSCALL (R180): `advance_pc(4); environment_call()`, the environment receiving the whole instruction word, with its
ignored bits `code`. -/
def execSyscall (code : SyscallCode) (s : State) : Result :=
  .next (environmentCall (syscallWord code) (advancePc s 4))

end Sys2Proof.Machine
end

