-- ==== Sys2Proof/Machine/Dispatch.lean ====
section
/-! DEFINITION. The meaning of each instruction, one arm per row of the opcode table (spec/30_encoding.md R65). -/

namespace Sys2Proof.Machine

def exec (i : Instr) (s : State) : Host.Outcome State Fault Refusal :=
  match i with
  | .add rd rs rt => Sys2Proof.Machine.execAdd rd rs rt s
  | .addi rt rs imm => Sys2Proof.Machine.execAddi rt rs imm s
  | .addiu rt rs imm => Sys2Proof.Machine.execAddiu rt rs imm s
  | .addu rd rs rt => Sys2Proof.Machine.execAddu rd rs rt s
  | .and rd rs rt => Sys2Proof.Machine.execAnd rd rs rt s
  | .andi rt rs imm => Sys2Proof.Machine.execAndi rt rs imm s
  | .beq rs rt offset => Sys2Proof.Machine.execBeq rs rt offset s
  | .bgez rs offset => Sys2Proof.Machine.execBgez rs offset s
  | .bgezal rs offset => Sys2Proof.Machine.execBgezal rs offset s
  | .bgtz rs offset => Sys2Proof.Machine.execBgtz rs offset s
  | .blez rs offset => Sys2Proof.Machine.execBlez rs offset s
  | .bltz rs offset => Sys2Proof.Machine.execBltz rs offset s
  | .bltzal rs offset => Sys2Proof.Machine.execBltzal rs offset s
  | .bne rs rt offset => Sys2Proof.Machine.execBne rs rt offset s
  | .div rs rt => Sys2Proof.Machine.execDiv rs rt s
  | .divu rs rt => Sys2Proof.Machine.execDivu rs rt s
  | .j target => Sys2Proof.Machine.execJ target s
  | .jal target => Sys2Proof.Machine.execJal target s
  | .jr rs => Sys2Proof.Machine.execJr rs s
  | .lb rt offset rs => Sys2Proof.Machine.execLb rt offset rs s
  | .lui rt imm => Sys2Proof.Machine.execLui rt imm s
  | .lw rt offset rs => Sys2Proof.Machine.execLw rt offset rs s
  | .mfhi rd => Sys2Proof.Machine.execMfhi rd s
  | .mflo rd => Sys2Proof.Machine.execMflo rd s
  | .mult rs rt => Sys2Proof.Machine.execMult rs rt s
  | .multu rs rt => Sys2Proof.Machine.execMultu rs rt s
  | .noop => Sys2Proof.Machine.execNoop s
  | .or rd rs rt => Sys2Proof.Machine.execOr rd rs rt s
  | .ori rt rs imm => Sys2Proof.Machine.execOri rt rs imm s
  | .sb rt offset rs => Sys2Proof.Machine.execSb rt offset rs s
  | .sll rd rt shamt => Sys2Proof.Machine.execSll rd rt shamt s
  | .sllv rd rt rs => Sys2Proof.Machine.execSllv rd rt rs s
  | .slt rd rs rt => Sys2Proof.Machine.execSlt rd rs rt s
  | .slti rt rs imm => Sys2Proof.Machine.execSlti rt rs imm s
  | .sltiu rt rs imm => Sys2Proof.Machine.execSltiu rt rs imm s
  | .sltu rd rs rt => Sys2Proof.Machine.execSltu rd rs rt s
  | .sra rd rt shamt => Sys2Proof.Machine.execSra rd rt shamt s
  | .srl rd rt shamt => Sys2Proof.Machine.execSrl rd rt shamt s
  | .srlv rd rt rs => Sys2Proof.Machine.execSrlv rd rt rs s
  | .sub rd rs rt => Sys2Proof.Machine.execSub rd rs rt s
  | .subu rd rs rt => Sys2Proof.Machine.execSubu rd rs rt s
  | .sw rt offset rs => Sys2Proof.Machine.execSw rt offset rs s
  | .syscall code => Sys2Proof.Machine.execSyscall code s
  | .xor rd rs rt => Sys2Proof.Machine.execXor rd rs rt s
  | .xori rt rs imm => Sys2Proof.Machine.execXori rt rs imm s

end Sys2Proof.Machine
end

