-- ==== Sys2Proof/Machine/Fetch.lean ====
section
/-! DEFINITION. The part of a step before the instruction executes (spec/10_state.md R26): the end of a run, the fetch,
the decoding, and the check on a control transfer in a taken delay slot, in the order of spec/60_exceptions.md R211. -/

namespace Sys2Proof.Machine

/-- The eleven control transfers (R13). -/
def isControlTransfer : Instr → Bool
  | .beq _ _ _ | .bgez _ _ | .bgezal _ _ | .bgtz _ _ | .blez _ _ | .bltz _ _ | .bltzal _ _ | .bne _ _ _
  | .j _ | .jal _ | .jr _ => true
  | .add _ _ _ | .addi _ _ _ | .addiu _ _ _ | .addu _ _ _ | .and _ _ _ | .andi _ _ _
  | .div _ _ | .divu _ _ | .lb _ _ _ | .lui _ _ | .lw _ _ _
  | .mfhi _ | .mflo _ | .mult _ _ | .multu _ _ | .noop | .or _ _ _ | .ori _ _ _ | .sb _ _ _
  | .sll _ _ _ | .sllv _ _ _ | .slt _ _ _ | .slti _ _ _ | .sltiu _ _ _ | .sltu _ _ _ | .sra _ _ _ | .srl _ _ _
  | .srlv _ _ _ | .sub _ _ _ | .subu _ _ _ | .sw _ _ _ | .syscall _ | .xor _ _ _ | .xori _ _ _ => false

/-- The instruction may not execute: a control transfer with `npc` not `pc + 4`, under `DELAY_SLOT_BRANCH = fault`
(R26, R133). -/
def delaySlotRefuses (s : State) (i : Instr) : Bool :=
  isControlTransfer i && s.npc != s.pc + 4 && s.params.delaySlotBranch == .fault

/-- Why the machine takes no further step, if it does not (R182, R204). -/
def runStopped (s : State) : Option Fault :=
  match s.fault, s.halted with
  | some r, _ => some (.terminal r)
  | none, some w => some (.runEnded w)
  | none, none => none

/-- What a step has found once the word at `pc` is fetched and decoded. -/
inductive Pending where
  | executes (i : Instr)
  | raises (r : FaultRecord)
  | stops (f : Fault)
  deriving DecidableEq, Repr

/-- What becomes of a fetched word (R26). -/
def pendingOfWord (s : State) (w : Word) : Pending :=
  match decode w with
  | .error _ => .raises (.reservedInstruction w)
  | .ok i => if delaySlotRefuses s i then .raises (.unpredictableDelaySlot w) else .executes i

/-- The step up to `execute` (R26). -/
def pending (s : State) : Pending :=
  match runStopped s with
  | some f => .stops f
  | none =>
    match fetchWord s with
    | .raises r => .raises r
    | .unspecified addr => .stops (.readUnspecified addr)
    | .value w => pendingOfWord s w

end Sys2Proof.Machine
end

