-- ==== Sys2Proof/Machine/Step.lean ====
section
/-! DEFINITION. One step of the machine (spec/10_state.md R26), and the host's way of placing an instruction. -/

namespace Sys2Proof.Machine

/-- One step (R26): what `pending` finds is executed, raised, or stops the machine. -/
def step (s : State) : Host.Outcome State Fault Refusal :=
  match pending s with
  | .executes i => exec i s
  | .raises r => raise r s
  | .stops f => .fault f

/-- The state with the instruction `w` stored at `pc`, as four bytes in the state's byte order, where the next step
fetches it (log 16). -/
def State.withFetchWord (s : State) (nbits w : Nat) : State :=
  { s with mem := memSetWord s.params.byteOrder s.mem s.pc (BitVec.ofNat 32 (w % 2 ^ nbits)) }

end Sys2Proof.Machine
end

