-- ==== Sys2Proof/Machine/Launch.lean ====
section
/-! DEFINITION. The launch state that the environment supplies (spec/10_state.md R32, spec/70_reset_and_hazards.md
R230), from the parameters, `ENTRY` and `INIT`. -/

namespace Sys2Proof.Machine

/-- `INIT` (R32): a value for every register, HI and LO, and for the bytes of memory it lists; the others stay
unspecified. -/
structure Init where
  x   : Vector Word 32
  hi  : Word
  lo  : Word
  mem : List Host.Cell
  deriving DecidableEq, Repr

/-- The launch state of R32: `x[0]` is 0, `pc` = `ENTRY`, `npc` = `ENTRY + 4`, no fault. -/
def launch (p : Config.Params) (entry : Word) (init : Init) : State where
  params := p
  x      := init.x.set 0 0
  hi     := init.hi
  lo     := init.lo
  pc     := entry
  npc    := entry + 4
  mem    := memOfCells init.mem
  fault  := none
  halted := none
  draws  := 0

end Sys2Proof.Machine
end

