-- ==== Sys2Proof/Safety.lean ====
section
/-! DEFINITION. The words the claims are stated in: the invariant of a state, what an instruction leaves unchanged
(its frame), the launch premises (spec/70_reset_and_hazards.md R235), and a safe run. -/

namespace Sys2Proof.Machine

/-! ## The invariant -/

/-- What every step keeps: memory in its canonical form, the stored register 0 equal to 0 (R21, R32), and not both ways
for a run to have ended (R182). -/
structure Inv (s : State) : Prop where
  memCanonical : s.mem.wf = true
  registerZero : s.x[0] = 0#32
  endedOneWay  : s.fault = none ∨ s.halted = none

/-! ## Frames -/

/-- Every register reads as before. -/
def SameRegs (s t : State) : Prop := ∀ r : RegNum, readReg t r = readReg s r

/-- Every register reads as before, but `i`, which reads `v` unless it is register 0 (R21). -/
def RegWritten (s t : State) (i : RegNum) (v : Word) : Prop :=
  ∀ r : RegNum, readReg t r = if r = i ∧ r ≠ 0#5 then v else readReg s r

/-- `hi` and `lo` are as before. -/
def SameHiLo (s t : State) : Prop := t.hi = s.hi ∧ t.lo = s.lo

/-- Every address reads as before. -/
def SameMem (s t : State) : Prop := ∀ a : Nat, memByte t.mem a = memByte s.mem a

/-- The parameters, the fault record, the end of the run and the count of free values are as before. -/
def SameControl (s t : State) : Prop :=
  t.params = s.params ∧ t.fault = s.fault ∧ t.halted = s.halted ∧ t.draws = s.draws

/-- `advance_pc(4)` (R25). -/
def Advanced (s t : State) : Prop := t.pc = s.npc ∧ t.npc = s.npc + 4

/-- The whole effect of an instruction that writes one register: `x[i] <- v; advance_pc(4)`. -/
def RegEffect (s t : State) (i : RegNum) (v : Word) : Prop :=
  RegWritten s t i v ∧ SameHiLo s t ∧ SameMem s t ∧ SameControl s t ∧ Advanced s t

/-- The whole effect of a control transfer that links nothing: `pc <- npc; npc <- target`. -/
def JumpEffect (s t : State) (target : Word) : Prop :=
  SameRegs s t ∧ SameHiLo s t ∧ SameMem s t ∧ SameControl s t ∧ t.pc = s.npc ∧ t.npc = target

/-- The whole effect of a control transfer that links: register 31 gets `pc + 8` (R132). -/
def LinkEffect (s t : State) (target : Word) : Prop :=
  RegWritten s t 31#5 (s.pc + 8) ∧ SameHiLo s t ∧ SameMem s t ∧ SameControl s t ∧ t.pc = s.npc ∧ t.npc = target

/-- The effect of a division: `hi` and `lo` get two values and `advance_pc(4)`. -/
def HiLoEffect (s t : State) (h l : Word) : Prop :=
  t.hi = h ∧ t.lo = l ∧ SameRegs s t ∧ SameMem s t ∧ SameControl s t ∧ Advanced s t

/-- The effect of a store of `n` bytes at `addr`, `stored k` the byte at `addr + k`: these bytes change, every other
address reads as before, no register changes, `advance_pc(4)`. -/
def StoreEffect (s t : State) (addr : Word) (n : Nat) (stored : Nat → Byte) : Prop :=
  (∀ k < n, memByte t.mem (addr.toNat + k) = some (stored k)) ∧
    (∀ a : Nat, a < addr.toNat ∨ addr.toNat + n ≤ a → memByte t.mem a = memByte s.mem a) ∧
    SameRegs s t ∧ SameHiLo s t ∧ SameControl s t ∧ Advanced s t

/-- The general registers an instruction may write: its destination field, or the link register. The environment's
answer to a SYSCALL is not counted here. -/
def destinations : Instr → List RegNum
  | .add rd _ _ | .addu rd _ _ | .and rd _ _ | .or rd _ _ | .sllv rd _ _ | .slt rd _ _ | .sltu rd _ _
  | .srlv rd _ _ | .sub rd _ _ | .subu rd _ _ | .xor rd _ _ | .sll rd _ _ | .sra rd _ _ | .srl rd _ _
  | .mfhi rd | .mflo rd => [rd]
  | .addi rt _ _ | .addiu rt _ _ | .andi rt _ _ | .ori rt _ _ | .xori rt _ _ | .slti rt _ _ | .sltiu rt _ _
  | .lb rt _ _ | .lw rt _ _ | .lui rt _ => [rt]
  | .bgezal _ _ | .bltzal _ _ | .jal _ => [31#5]
  | .beq _ _ _ | .bgez _ _ | .bgtz _ _ | .blez _ _ | .bltz _ _ | .bne _ _ _ | .div _ _ | .divu _ _ | .j _ | .jr _
  | .mult _ _ | .multu _ _ | .noop | .sb _ _ _ | .sw _ _ _ | .syscall _ => []

/-- What `npc` is after an instruction that does not raise (R25): the sum for a branch, the target for a jump, the next
word for every other. The displacement of a taken branch is 4 times the signed offset. -/
def npcAfter (s : State) : Instr → Word
  | .beq rs rt offset => branchTo (decide (readReg s rs = readReg s rt)) offset
  | .bne rs rt offset => branchTo (decide (readReg s rs ≠ readReg s rt)) offset
  | .bgez rs offset | .bgezal rs offset => branchTo (decide ((readReg s rs).toInt ≥ 0)) offset
  | .bgtz rs offset => branchTo (decide ((readReg s rs).toInt > 0)) offset
  | .blez rs offset => branchTo (decide ((readReg s rs).toInt ≤ 0)) offset
  | .bltz rs offset | .bltzal rs offset => branchTo (decide ((readReg s rs).toInt < 0)) offset
  | .j target | .jal target => (s.npc &&& 0xF0000000#32) ||| BitVec.ofNat 32 (4 * target.toNat)
  | .jr rs => readReg s rs
  | .add _ _ _ | .addi _ _ _ | .addiu _ _ _ | .addu _ _ _ | .and _ _ _ | .andi _ _ _
  | .div _ _ | .divu _ _ | .lb _ _ _ | .lui _ _ | .lw _ _ _
  | .mfhi _ | .mflo _ | .mult _ _ | .multu _ _ | .noop | .or _ _ _ | .ori _ _ _ | .sb _ _ _
  | .sll _ _ _ | .sllv _ _ _ | .slt _ _ _ | .slti _ _ _ | .sltiu _ _ _ | .sltu _ _ _ | .sra _ _ _ | .srl _ _ _
  | .srlv _ _ _ | .sub _ _ _ | .subu _ _ _ | .sw _ _ _ | .syscall _ | .xor _ _ _ | .xori _ _ _ => s.npc + 4
where
  branchTo (taken : Bool) (offset : Imm16) : Word :=
    s.npc + (if taken then BitVec.ofInt 32 (4 * offset.toInt) else 4)

/-- An exact result that no 32-bit signed value has (R100). -/
def OutOfRange (exact : Int) : Prop := exact < -2 ^ 31 ∨ exact > 2 ^ 31 - 1

/-! ## Unspecified bytes (R233, log 6) -/

/-- Some byte of the `n` from `addr` on has no value. -/
def BytesMissing (m : Memory) (addr : Word) (n : Nat) : Prop := ∃ k < n, memByte m (addr.toNat + k) = none

/-- The fetch at `pc` is aligned and admitted and meets a byte with no value. -/
def FetchMeetsUnspecified (s : State) : Prop :=
  s.pc.toNat % 4 = 0 ∧ admits s.params .fetch .word s.pc = true ∧ BytesMissing s.mem s.pc 4

/-- The instruction is a load whose access at `addr`, its effective address, passes the checks of R43 and meets a byte
with no value. -/
def LoadMeetsUnspecified (i : Instr) (s : State) (addr : Word) : Prop :=
  (∃ rt offset rs, i = .lb rt offset rs ∧ addr = effectiveAddress s rs offset ∧
    admits s.params .read .byte addr = true ∧ BytesMissing s.mem addr 1) ∨
  (∃ rt offset rs, i = .lw rt offset rs ∧ addr = effectiveAddress s rs offset ∧ addr.toNat % 4 = 0 ∧
    admits s.params .read .word addr = true ∧ BytesMissing s.mem addr 4)

/-! ## Runs -/

/-- The states a run from `s` goes through (R182). -/
inductive Reachable (s : State) : State → Prop where
  | refl : Reachable s s
  | step {t u : State} : Reachable s t → Machine.step t = .next u → Reachable s u

/-- A run from `s` is safe when no state of it holds a fault record and no step of it stops at an unspecified byte. -/
def SafeRun (s : State) : Prop :=
  ∀ t, Reachable s t → t.fault = none ∧ ∀ a, Machine.step t ≠ .fault (.readUnspecified a)

/-! ## The launch premises (R235) -/

/-- `addr` is an address of the program text from which the run may fetch (R54): a multiple of 4 in the text, which the
model takes from `MEM_MAP` (log 8). -/
def TextAddress (p : Config.Params) (addr : Word) : Prop := addr.toNat % 4 = 0 ∧ inText p addr = true

/-- `Launch.text_mapped` (R235): every address of the program text admits a 4-byte fetch, and, under `SMC = refuse`, the
set of text addresses is fixed: it is the same in every state of a run. -/
structure TextMapped (s : State) : Prop where
  mapped : ∀ addr : Word, TextAddress s.params addr → admits s.params .fetch .word addr = true
  fixed  : s.params.smc = .refuse → ∀ t, Reachable s t →
    ∀ addr : Word, TextAddress t.params addr ↔ TextAddress s.params addr

/-- The launch premises of R235, by name. `Launch.nothing_in_flight` is vacuous, since no field of the state holds an
operation in flight (R238). That the run has not ended, and that the entry is an address of the text, are added. -/
structure LaunchPremises (s : State) : Prop where
  entryAligned  : aligned s.pc = true
  npcSequential : s.npc = s.pc + 4
  noFault       : s.fault = none
  notEnded      : s.halted = none
  registerZero  : readReg s 0#5 = 0#32
  entryMapped   : admits s.params .fetch .word s.pc = true
  textMapped    : TextMapped s

end Sys2Proof.Machine
end

