-- ==== Sys2Proof/Certificates/Slice0/Obligations.lean ====
section
/-! DEFINITION. The statements for the provers. "stated" in OBLIGATIONS.json marks those that formalise a numbered rule
of spec/ whole; a clause that rests on a choice of the model names its log entry here. -/

open Sys2Proof Sys2Proof.Machine

/-! ## Encoding (spec/30_encoding.md) -/

/-- R76: decoding the encoded instruction gives it back, with every operand at every value; the one exception is
`sll $0, $0, 0`, whose word is NOOP's. SYSCALL has no operand (R180): whatever ignored bits its term keeps from a decoded
word (log 18), the encoder writes them as 0. -/
def Obligations.DecodeOfEncodeReturnsTheInstruction : Prop :=
  (∀ i : Instr, i.wellFormed = true → decode (encode i) = .ok i) ∧
    (∀ i : Instr, i.wellFormed = false ↔ i = .sll 0#5 0#5 0#5 ∨ ∃ code, code ≠ 0#20 ∧ i = .syscall code) ∧
    encode (.sll 0#5 0#5 0#5) = encode .noop ∧
    ∀ code : SyscallCode, decode (encode (.syscall code)) = .ok (.syscall 0#20)

/-- Encoding a decoded instruction gives the word back with its ignored positions (the hyphens of its pattern and SLL's
`rs`, R68), and no others, written as 0 (R76). -/
def Obligations.EncodeOfDecodeClearsOnlyIgnoredBits : Prop :=
  ∀ (w : Word) (i : Instr), decode w = .ok i → encode i = w &&& ~~~ignoredBits i

/-- R69: `decode(w)` is the first row of the table of R65 that `w` selects by match and mask, with its operands, and none
where no row is selected; no two rows match the same word except NOOP and SLL, which share the word 0, and that word has
the same effect under both. -/
def Obligations.DecodeIsTheFirstSelectedTableRow : Prop :=
  (∀ w : Word, decode w =
    match (opcodeTable.find? fun row => w &&& row.maskBits == row.matchBits) with
    | some row => .ok (row.build w)
    | none => .error (.reserved w)) ∧
    (opcodeTable.Pairwise fun row row' => ∀ w : Word,
      w &&& row.maskBits = row.matchBits → w &&& row'.maskBits = row'.matchBits → w = 0#32) ∧
    ∀ s : State, exec (.sll 0#5 0#5 0#5) s = exec .noop s

/-- A few words, written out from R65 bit by bit, decode to the instructions they stand for. -/
def Obligations.WrittenOutWordsDecode : Prop :=
  decode 0b000000_01001_01010_01000_00000_100000#32 = .ok (.add 8#5 9#5 10#5) ∧
    decode 0b001001_01001_01000_1111111111111111#32 = .ok (.addiu 8#5 9#5 0xFFFF#16) ∧
    decode 0b000001_01001_10001_0000000000000100#32 = .ok (.bgezal 9#5 4#16) ∧
    decode 0b000011_00000100000000000001000000#32 = .ok (.jal 0x0100040#26) ∧
    decode 0b000000_01001_01010_00000_00000_011010#32 = .ok (.div 9#5 10#5) ∧
    decode 0b101011_01001_01000_0000000000000100#32 = .ok (.sw 8#5 4#16 9#5) ∧
    decode 0b000000_00000_01001_01000_00100_000011#32 = .ok (.sra 8#5 9#5 4#5) ∧
    decode 0b000000_00000_00000_00000_00001_001100#32 = .ok (.syscall 1#20) ∧
    decode 0b000000_00000_00000_00000_00000_000000#32 = .ok .noop ∧
    decode 0xFFFFFFFF#32 = .error (.reserved 0xFFFFFFFF#32)

/-! ## The step (spec/10_state.md R26) -/

/-- R26: where nothing stops or raises before, a step is `exec` of the instruction that the four bytes at `pc` decode
to, at the same state. The step adds nothing: each meaning moves `pc` and `npc` itself (R9). -/
def Obligations.StepRunsTheDecodedInstruction : Prop :=
  ∀ (s : State) (b0 b1 b2 b3 : Byte) (i : Instr),
    s.fault = none → s.halted = none →
    s.pc.toNat % 4 = 0 → admits s.params .fetch .word s.pc = true →
    memByte s.mem s.pc.toNat = some b0 → memByte s.mem (s.pc.toNat + 1) = some b1 →
    memByte s.mem (s.pc.toNat + 2) = some b2 → memByte s.mem (s.pc.toNat + 3) = some b3 →
    decode (joinBytes s.params.byteOrder b0 b1 b2 b3) = .ok i →
    (isControlTransfer i = true → s.npc = s.pc + 4 ∨ s.params.delaySlotBranch = .literal) →
    step s = exec i s

/-- R26, for a word at `pc` whose bytes have values (where one has none, LoadsOfUnwrittenBytesStopByName says what a step
does): the terminal state, then the checks of a step in their order,
each raising and changing nothing else, then the execution. -/
def Obligations.StepMakesItsChecksInOrder : Prop :=
  (∀ (s : State) (r : FaultRecord), s.fault = some r → step s = .fault (.terminal r)) ∧
    ∀ s : State, s.fault = none → s.halted = none →
      (s.pc.toNat % 4 ≠ 0 → step s = .next { s with fault := some (.addressErrorFetch s.pc) }) ∧
      (s.pc.toNat % 4 = 0 → admits s.params .fetch .word s.pc = false →
        step s = .next { s with fault := some (.busErrorFetch s.pc) }) ∧
      ∀ w : Word, s.pc.toNat % 4 = 0 → admits s.params .fetch .word s.pc = true →
        memWord s.params.byteOrder s.mem s.pc = some w →
        ((∀ i, decode w ≠ .ok i) → step s = .next { s with fault := some (.reservedInstruction w) }) ∧
        ∀ i, decode w = .ok i →
          if isControlTransfer i = true ∧ s.npc ≠ s.pc + 4 ∧ s.params.delaySlotBranch = .fault then
            step s = .next { s with fault := some (.unpredictableDelaySlot w) }
          else step s = exec i s

/-- R204: a fault is precise and terminal. A step that ends with a fault record has written the record and nothing else;
from then on there is no step; no instruction reads the record or clears it; it is empty at launch. -/
def Obligations.FaultsArePreciseAndTerminal : Prop :=
  (∀ (s t : State) (r : FaultRecord), step s = .next t → t.fault = some r → t = { s with fault := some r }) ∧
    (∀ (s : State) (r : FaultRecord), s.fault = some r → step s = .fault (.terminal r)) ∧
    (∀ (i : Instr) (s t : State), exec i s = .next t → s.fault ≠ none → t.fault ≠ none) ∧
    (∀ (i : Instr) (s t : State) (f : Option FaultRecord), exec i s = .next t →
      ∃ t', exec i { s with fault := f } = .next t' ∧ { t' with fault := none } = { t with fault := none }) ∧
    ∀ (p : Config.Params) (entry : Word) (init : Init), (launch p entry init).fault = none

/-- R182: a run ends at a fault record or at a SYSCALL that the environment answered with `halt`. That the word of the
SYSCALL is kept in `halted` and that a step answers `runEnded` from then on is the model's choice (log 10). Before the
run has ended, a step gives a next state, or it stops at a byte with no value (the model's choice, log 6): at the
aligned admitted `pc` of its fetch, or at the admitted effective address of the LB or LW it executes. No step is refused.
The word kept is the SYSCALL's own. -/
def Obligations.RunsEndOnlyAtFaultsAndHaltedSyscalls : Prop :=
  ∀ s : State,
    (∀ q, step s ≠ .refused q) ∧
    (∀ r, s.fault = some r → step s = .fault (.terminal r)) ∧
    (∀ w, s.fault = none → s.halted = some w → step s = .fault (.runEnded w)) ∧
    (s.fault = none → s.halted = none →
      (∃ t, step s = .next t) ∨
      (FetchMeetsUnspecified s ∧ step s = .fault (.readUnspecified s.pc)) ∨
      ∃ w i a, memWord s.params.byteOrder s.mem s.pc = some w ∧ decode w = .ok i ∧
        LoadMeetsUnspecified i s a ∧ step s = .fault (.readUnspecified a)) ∧
    ∀ (t : State) (w : Word), step s = .next t → t.halted = some w →
      memWord s.params.byteOrder s.mem s.pc = some w ∧ (∃ c, decode w = .ok (.syscall c)) ∧
        envAnswer w (advancePc s 4) = .halt

/-- At reset, a word placed by `withFetchWord` is fetched and run by the next step (the host's use of it, log 16; the
reset values of log 1 to 3 make it fetchable). -/
def Obligations.FirstStepAfterResetRunsThePlacedWord : Prop :=
  ∀ (w : Word) (i : Instr), decode w = .ok i →
    step (State.reset.withFetchWord 32 w.toNat) = exec i (State.reset.withFetchWord 32 w.toNat)

/-- Every instruction gives a next state in every state, but for LB and LW where their access at the effective address is
aligned and admitted and meets a byte with no value: there, and nowhere else, they stop as `readUnspecified` with that
address (the model's stop, log 6, R233 treatment (a)). No instruction is refused. -/
def Obligations.EveryInstructionCompletesButUnspecifiedLoads : Prop :=
  ∀ (i : Instr) (s : State),
    ((∃ t, exec i s = .next t) ∧ ∀ a, ¬LoadMeetsUnspecified i s a) ∨
      ∃ a, LoadMeetsUnspecified i s a ∧ exec i s = .fault (.readUnspecified a)

/-! ## Invariants -/

/-- Every step keeps the invariant, from every state that meets it: canonical memory, register 0 stored as 0 (R21, R32),
and a run that has not ended in both ways (R182). -/
def Obligations.EveryStepKeepsTheStateInvariant : Prop :=
  ∀ s t : State, Inv s → step s = .next t → Inv t

/-- The state after reset and every launch state meet the invariant (R32). -/
def Obligations.ResetAndLaunchMeetTheStateInvariant : Prop :=
  Inv State.reset ∧ ∀ (p : Config.Params) (entry : Word) (init : Init), Inv (launch p entry init)

/-- R20, R41: no step writes the parameters; they are constant over a run. -/
def Obligations.NoStepChangesTheParameters : Prop :=
  ∀ s t : State, step s = .next t → t.params = s.params

/-- R54 under `SMC = refuse`, with an environment that halts: along every run from a state that meets the invariant, no
word that may be fetched ever changes. That the program text is what `MEM_MAP` lets the run fetch is log 8. -/
def Obligations.FetchableWordsNeverChangeUnderRefuse : Prop :=
  ∀ s t : State, Inv s → s.params.smc = .refuse → s.params.envSyscall = .halt → Reachable s t →
    ∀ addr : Word, aligned addr = true → admits s.params .fetch .word addr = true →
      memWord t.params.byteOrder t.mem addr = memWord s.params.byteOrder s.mem addr

/-- R54 under `SMC = coherent`: a fetch at an address where SW has just stored gives the word stored. -/
def Obligations.CoherentFetchSeesTheStoredWord : Prop :=
  ∀ (s t u : State) (rt rs : RegNum) (offset : Imm16),
    s.mem.wf = true → s.params.smc = .coherent → s.fault = none →
    exec (.sw rt offset rs) s = .next t → t.fault = none →
    u.mem = t.mem → u.params = s.params → u.pc = effectiveAddress s rs offset →
    admits s.params .fetch .word u.pc = true →
    fetchWord u = .value (readReg s rt)

/-! ## The program counters -/

/-- R25: after an instruction that does not raise, `pc` is the old `npc` and `npc` is what its closing `advance_pc` or
jump makes it; every value so put in `npc` is a multiple of 4 if `npc` was one, but for JR; and a fetch from an address
that is no multiple of 4 raises. -/
def Obligations.EveryInstructionEndsWithItsPcUpdate : Prop :=
  (∀ (i : Instr) (s t : State), exec i s = .next t → s.fault = none → t.fault = none →
    t.pc = s.npc ∧ t.npc = npcAfter s i ∧
      (s.npc.toNat % 4 = 0 → (∀ rs, i ≠ .jr rs) → t.npc.toNat % 4 = 0)) ∧
    ∀ s : State, s.fault = none → s.halted = none → s.pc.toNat % 4 ≠ 0 →
      step s = .next { s with fault := some (.addressErrorFetch s.pc) }

/-- R133, R237: after a control transfer at `pc` with `npc = pc + 4`, a control transfer in the delay slot raises
`UnpredictableDelaySlot` under the policy `fault` when the first was taken to somewhere other than the fall-through, and
executes when it was not, or under the policy `literal`. -/
def Obligations.ControlTransferInDelaySlotRaisesOnlyWhenTaken : Prop :=
  ∀ (i j : Instr) (s t : State) (w : Word),
    isControlTransfer i = true → s.fault = none → s.halted = none → s.npc = s.pc + 4 →
    exec i s = .next t →
    aligned t.pc = true → admits t.params .fetch .word t.pc = true →
    memWord t.params.byteOrder t.mem t.pc = some w → decode w = .ok j → isControlTransfer j = true →
    (s.params.delaySlotBranch = .fault → t.npc ≠ s.pc + 8 →
      step t = .next { t with fault := some (.unpredictableDelaySlot w) }) ∧
    (s.params.delaySlotBranch = .literal ∨ t.npc = s.pc + 8 → step t = exec j t)

/-! ## Frames of the whole machine -/

/-- R30, R44: only SB and SW store, and only SYSCALL's environment may replace memory; every other instruction leaves
every byte as it was. -/
def Obligations.OnlyStoresAndSyscallWriteMemory : Prop :=
  ∀ (i : Instr) (s t : State), exec i s = .next t →
    (∀ rt offset rs, i ≠ .sb rt offset rs) → (∀ rt offset rs, i ≠ .sw rt offset rs) → (∀ c, i ≠ .syscall c) →
    SameMem s t

/-- R23: `hi` and `lo` are written only by DIV, DIVU, MULT and MULTU (and by the environment at a SYSCALL, R181). -/
def Obligations.OnlyMultiplyDivideAndSyscallWriteHiLo : Prop :=
  ∀ (i : Instr) (s t : State), exec i s = .next t →
    (∀ rs rt, i ≠ .div rs rt) → (∀ rs rt, i ≠ .divu rs rt) → (∀ rs rt, i ≠ .mult rs rt) →
    (∀ rs rt, i ≠ .multu rs rt) → (∀ c, i ≠ .syscall c) →
    SameHiLo s t

/-- R21: an instruction writes no general register but its destination field, or register 31 where it links; register 0
reads 0 after it. -/
def Obligations.InstructionsWriteOnlyTheirDestination : Prop :=
  ∀ (i : Instr) (s t : State), exec i s = .next t → (∀ c, i ≠ .syscall c) →
    readReg t 0#5 = 0#32 ∧ ∀ r : RegNum, r ∉ destinations i → readReg t r = readReg s r

/-! ## Addition and subtraction (spec/40_arithmetic.md) -/

/-- R101, R102, R105: without signed overflow ADD, ADDI and SUB write the exact sum or difference, and nothing else. -/
def Obligations.SignedArithmeticWritesTheExactResult : Prop :=
  ∀ (s : State) (rd rs rt : RegNum) (imm : Imm16),
    (¬OutOfRange ((readReg s rs).toInt + (readReg s rt).toInt) →
      ∃ t v, exec (.add rd rs rt) s = .next t ∧ RegEffect s t rd v ∧
        v.toInt = (readReg s rs).toInt + (readReg s rt).toInt) ∧
    (¬OutOfRange ((readReg s rs).toInt + imm.toInt) →
      ∃ t v, exec (.addi rt rs imm) s = .next t ∧ RegEffect s t rt v ∧
        v.toInt = (readReg s rs).toInt + imm.toInt) ∧
    (¬OutOfRange ((readReg s rs).toInt - (readReg s rt).toInt) →
      ∃ t v, exec (.sub rd rs rt) s = .next t ∧ RegEffect s t rd v ∧
        v.toInt = (readReg s rs).toInt - (readReg s rt).toInt)

/-- R200: the overflow exception is raised by ADD, ADDI and SUB, exactly on signed overflow of the result, and by no
other instruction; nothing is written but the fault record, and the machine stops. -/
def Obligations.OverflowIsRaisedByAddAddiSubAlone : Prop :=
  ∀ (i : Instr) (s : State), s.fault = none →
    ((∃ t, exec i s = .next t ∧ t.fault = some .integerOverflow) ↔
      (∃ rd rs rt, i = .add rd rs rt ∧ OutOfRange ((readReg s rs).toInt + (readReg s rt).toInt)) ∨
      (∃ rt rs imm, i = .addi rt rs imm ∧ OutOfRange ((readReg s rs).toInt + imm.toInt)) ∨
      (∃ rd rs rt, i = .sub rd rs rt ∧ OutOfRange ((readReg s rs).toInt - (readReg s rt).toInt))) ∧
    ∀ t, exec i s = .next t → t.fault = some .integerOverflow →
      t = { s with fault := some .integerOverflow } ∧ step t = .fault (.terminal .integerOverflow)

/-- R103, R104, R106: ADDIU, ADDU and SUBU always write the result modulo 2^32 and never raise. -/
def Obligations.UnsignedArithmeticWrapsAndNeverRaises : Prop :=
  ∀ (s : State) (rd rs rt : RegNum) (imm : Imm16),
    (∃ t v, exec (.addu rd rs rt) s = .next t ∧ RegEffect s t rd v ∧
      v.toNat = ((readReg s rs).toNat + (readReg s rt).toNat) % 2 ^ 32) ∧
    (∃ t v, exec (.subu rd rs rt) s = .next t ∧ RegEffect s t rd v ∧
      v.toNat = (2 ^ 32 + (readReg s rs).toNat - (readReg s rt).toNat) % 2 ^ 32) ∧
    (∃ t v, exec (.addiu rt rs imm) s = .next t ∧ RegEffect s t rt v ∧
      (v.toNat : Int) = ((readReg s rs).toInt + imm.toInt) % 2 ^ 32)

/-! ## Bitwise logic (spec/41_logical.md) -/

/-- R110: each of the six works on all 32 bit positions independently; the immediate is widened by `LOGICAL_IMM_EXT`,
bits 31:16 being 0 under `zero` and copies of bit 15 under `sign`. None raises. -/
def Obligations.LogicalInstructionsWorkBitByBit : Prop :=
  ∀ (s : State) (rd rs rt : RegNum) (imm : Imm16),
    let a := readReg s rs
    let b := readReg s rt
    let immBit := fun k : Nat =>
      if k < 16 then imm.getLsbD k else s.params.logicalImmExt == .sign && imm.getLsbD 15
    (∃ t v, exec (.and rd rs rt) s = .next t ∧ RegEffect s t rd v ∧
      ∀ k < 32, v.getLsbD k = (a.getLsbD k && b.getLsbD k)) ∧
    (∃ t v, exec (.or rd rs rt) s = .next t ∧ RegEffect s t rd v ∧
      ∀ k < 32, v.getLsbD k = (a.getLsbD k || b.getLsbD k)) ∧
    (∃ t v, exec (.xor rd rs rt) s = .next t ∧ RegEffect s t rd v ∧
      ∀ k < 32, v.getLsbD k = (a.getLsbD k ^^ b.getLsbD k)) ∧
    (∃ t v, exec (.andi rt rs imm) s = .next t ∧ RegEffect s t rt v ∧
      ∀ k < 32, v.getLsbD k = (a.getLsbD k && immBit k)) ∧
    (∃ t v, exec (.ori rt rs imm) s = .next t ∧ RegEffect s t rt v ∧
      ∀ k < 32, v.getLsbD k = (a.getLsbD k || immBit k)) ∧
    (∃ t v, exec (.xori rt rs imm) s = .next t ∧ RegEffect s t rt v ∧
      ∀ k < 32, v.getLsbD k = (a.getLsbD k ^^ immBit k))

/-- R117: LUI writes the immediate shifted left 16 bits; the lower 16 bits are zeroes. Its words are those that match
0x3C000000 under the mask 0xFC000000, whatever bits 25:21 are. -/
def Obligations.LuiWritesTheUpperHalf : Prop :=
  (∀ (s : State) (rt : RegNum) (imm : Imm16),
    ∃ t v, exec (.lui rt imm) s = .next t ∧ RegEffect s t rt v ∧ v.toNat = imm.toNat * 2 ^ 16) ∧
    ∀ w : Word, w &&& 0xFC000000#32 = 0x3C000000#32 → decode w = .ok (.lui (rtOf w) (imm16Of w))

/-! ## Branches and jumps (spec/42_branch_jump.md) -/

/-- R121, R128: BEQ and BNE move `npc` by 4 times the signed offset when taken and by 4 when not, and change nothing
else. -/
def Obligations.EqualityBranchesMoveNpc : Prop :=
  ∀ (s : State) (rs rt : RegNum) (offset : Imm16),
    (∃ t, exec (.beq rs rt offset) s = .next t ∧
      JumpEffect s t (if readReg s rs = readReg s rt then s.npc + BitVec.ofInt 32 (4 * offset.toInt) else s.npc + 4)) ∧
    (∃ t, exec (.bne rs rt offset) s = .next t ∧
      JumpEffect s t (if readReg s rs = readReg s rt then s.npc + 4 else s.npc + BitVec.ofInt 32 (4 * offset.toInt)))

/-- R122, R124, R125, R126: BGEZ, BGTZ, BLEZ and BLTZ compare the register, read as signed, with zero; they move `npc` by 4
times the signed offset when taken and by 4 when not, and change nothing else. -/
def Obligations.ZeroComparingBranchesMoveNpc : Prop :=
  ∀ (s : State) (rs : RegNum) (offset : Imm16),
    let a := (readReg s rs).toInt
    let target := s.npc + BitVec.ofInt 32 (4 * offset.toInt)
    (∃ t, exec (.bgez rs offset) s = .next t ∧ JumpEffect s t (if a ≥ 0 then target else s.npc + 4)) ∧
    (∃ t, exec (.bgtz rs offset) s = .next t ∧ JumpEffect s t (if a > 0 then target else s.npc + 4)) ∧
    (∃ t, exec (.blez rs offset) s = .next t ∧ JumpEffect s t (if a ≤ 0 then target else s.npc + 4)) ∧
    (∃ t, exec (.bltz rs offset) s = .next t ∧ JumpEffect s t (if a < 0 then target else s.npc + 4))

/-- R123, R127, R132: BGEZAL and BLTZAL write `pc + 8` to register 31 when taken, and under `LINK_CONDITIONAL = false`
also when not; the test uses the register's old value, register 31's too. -/
def Obligations.LinkingBranchesWriteRegister31 : Prop :=
  ∀ (s : State) (rs : RegNum) (offset : Imm16),
    let a := (readReg s rs).toInt
    let target := s.npc + BitVec.ofInt 32 (4 * offset.toInt)
    (∃ t, exec (.bgezal rs offset) s = .next t ∧
      if a ≥ 0 then LinkEffect s t target
      else if s.params.linkConditional = true then JumpEffect s t (s.npc + 4) else LinkEffect s t (s.npc + 4)) ∧
    (∃ t, exec (.bltzal rs offset) s = .next t ∧
      if a < 0 then LinkEffect s t target
      else if s.params.linkConditional = true then JumpEffect s t (s.npc + 4) else LinkEffect s t (s.npc + 4))

/-- R129, R130: the target of J and JAL is `target26` times 4 in the 256 MiB region of the delay slot's address; JAL
links `pc + 8`. -/
def Obligations.JumpsStayInTheRegionOfTheDelaySlot : Prop :=
  ∀ (s : State) (target : Target26),
    ∃ dest : Word, dest.toNat = s.npc.toNat / 2 ^ 28 * 2 ^ 28 + target.toNat * 4 ∧
      (∃ t, exec (.j target) s = .next t ∧ JumpEffect s t dest) ∧
      (∃ t, exec (.jal target) s = .next t ∧ LinkEffect s t dest)

/-- R131, R134: JR takes all 32 bits of the register and makes no check; where they are no multiple of 4, the fetch from
there raises, with `pc` the bad address. -/
def Obligations.JumpRegisterTakesAllBitsAndFaultsAtTheFetch : Prop :=
  (∀ (s : State) (rs : RegNum), ∃ t, exec (.jr rs) s = .next t ∧ JumpEffect s t (readReg s rs)) ∧
    ∀ (s t u : State) (rs : RegNum) (i : Instr), (readReg s rs).toNat % 4 ≠ 0 → s.fault = none →
      exec (.jr rs) s = .next t → exec i t = .next u → u.fault = none → u.halted = none →
      step u = .next { u with fault := some (.addressErrorFetch (readReg s rs)) }

/-! ## Multiply and divide (spec/43_muldiv.md) -/

/-- R141: off its corners DIV leaves in `lo` and `hi` the quotient and remainder with `a = q * b + r`, `|r| < |b|` and
`r` zero or of the dividend's sign. -/
def Obligations.SignedDivisionTruncatesTowardZero : Prop :=
  ∀ (s : State) (rs rt : RegNum),
    let a := (readReg s rs).toInt
    let b := (readReg s rt).toInt
    b ≠ 0 → ¬(a = -2 ^ 31 ∧ b = -1) →
    ∃ t h l, exec (.div rs rt) s = .next t ∧ HiLoEffect s t h l ∧
      a = l.toInt * b + h.toInt ∧ h.toInt.natAbs < b.natAbs ∧ (h.toInt = 0 ∨ (h.toInt < 0 ↔ a < 0))

/-- R142: for a divisor other than 0 DIVU leaves the unsigned quotient in `lo` and the remainder in `hi`. -/
def Obligations.UnsignedDivisionGivesQuotientAndRemainder : Prop :=
  ∀ (s : State) (rs rt : RegNum), readReg s rt ≠ 0#32 →
    ∃ t h l, exec (.divu rs rt) s = .next t ∧ HiLoEffect s t h l ∧
      l.toNat = (readReg s rs).toNat / (readReg s rt).toNat ∧ h.toNat = (readReg s rs).toNat % (readReg s rt).toNat

/-- R147: a division corner raises nothing, advances the pc, changes no general register and no memory, and leaves in
`hi`, `lo` the pair `DIV_CORNER` gives for the instruction and the operands, a function about which nothing is known. -/
def Obligations.DivisionCornersCompleteWithTheFreePair : Prop :=
  ∀ (s : State) (rs rt : RegNum),
    let a := readReg s rs
    let b := readReg s rt
    ((b = 0#32 ∨ (a = 0x80000000#32 ∧ b = 0xFFFFFFFF#32)) →
      ∃ t, exec (.div rs rt) s = .next t ∧
        HiLoEffect s t (Config.divCorner .div a b).1 (Config.divCorner .div a b).2) ∧
    (b = 0#32 →
      ∃ t, exec (.divu rs rt) s = .next t ∧
        HiLoEffect s t (Config.divCorner .divu a b).1 (Config.divCorner .divu a b).2)

/-- R143, R144, R148: MULT and MULTU leave the low 32 bits of the product in `lo`, the same for both, and in `hi` what
`MULT_HI` says: the old value, or the high word, or under `unspecified` a free value (the model draws it by the counter
`draws`, log 12). Nothing else changes. -/
def Obligations.MultiplicationFollowsThePolicyForHi : Prop :=
  ∀ (s : State) (rs rt : RegNum) (k : Config.MultKind),
    let p : Int := match k with
      | .mult => (readReg s rs).toInt * (readReg s rt).toInt
      | .multu => (readReg s rs).toNat * (readReg s rt).toNat
    ∃ t, exec (match k with | .mult => .mult rs rt | .multu => .multu rs rt) s = .next t ∧
      t.lo.toNat = (readReg s rs).toNat * (readReg s rt).toNat % 2 ^ 32 ∧
      (match s.params.multHi with
        | .unspecified => t.hi = Config.multHiDraw s.draws ∧ t.draws = s.draws + 1
        | .unchanged => t.hi = s.hi ∧ t.draws = s.draws
        | .highWord => (t.hi.toNat : Int) = p / 2 ^ 32 % 2 ^ 32 ∧ t.draws = s.draws) ∧
      SameRegs s t ∧ SameMem s t ∧ Advanced s t ∧
      t.params = s.params ∧ t.fault = s.fault ∧ t.halted = s.halted

/-- R145, R146: MFHI and MFLO copy `hi` and `lo` to the register. -/
def Obligations.MovesFromHiLoCopyTheRegister : Prop :=
  ∀ (s : State) (rd : RegNum),
    (∃ t, exec (.mfhi rd) s = .next t ∧ RegEffect s t rd s.hi) ∧
    (∃ t, exec (.mflo rd) s = .next t ∧ RegEffect s t rd s.lo)

/-! ## Loads and stores (spec/20_memory.md, spec/44_load_store.md) -/

/-- R45: the effective address is the base register plus the sign-extended offset, modulo 2^32. -/
def Obligations.EffectiveAddressWrapsModulo2To32 : Prop :=
  ∀ (s : State) (rs : RegNum) (offset : Imm16),
    ((effectiveAddress s rs offset).toNat : Int) = ((readReg s rs).toNat + offset.toInt) % 2 ^ 32

/-- R151: LB, at any admitted address whose byte has a value, writes the byte extended by `LB_EXT`. -/
def Obligations.LoadByteExtendsTheByte : Prop :=
  ∀ (s : State) (rt rs : RegNum) (offset : Imm16) (b : Byte),
    admits s.params .read .byte (effectiveAddress s rs offset) = true →
    memByte s.mem (effectiveAddress s rs offset).toNat = some b →
    ∃ t v, exec (.lb rt offset rs) s = .next t ∧ RegEffect s t rt v ∧
      (match s.params.lbExt with | .sign => v.toInt = b.toInt | .zero => v.toNat = b.toNat)

/-- R152, R41: LW, at an aligned admitted address whose bytes have values, writes the four bytes in `BYTE_ORDER`. -/
def Obligations.LoadWordAssemblesByByteOrder : Prop :=
  ∀ (s : State) (rt rs : RegNum) (offset : Imm16) (b0 b1 b2 b3 : Byte),
    let addr := effectiveAddress s rs offset
    addr.toNat % 4 = 0 → admits s.params .read .word addr = true →
    memByte s.mem addr.toNat = some b0 → memByte s.mem (addr.toNat + 1) = some b1 →
    memByte s.mem (addr.toNat + 2) = some b2 → memByte s.mem (addr.toNat + 3) = some b3 →
    ∃ t v, exec (.lw rt offset rs) s = .next t ∧ RegEffect s t rt v ∧
      v.toNat = (match s.params.byteOrder with
        | .big => b0.toNat * 2 ^ 24 + b1.toNat * 2 ^ 16 + b2.toNat * 2 ^ 8 + b3.toNat
        | .little => b3.toNat * 2 ^ 24 + b2.toNat * 2 ^ 16 + b1.toNat * 2 ^ 8 + b0.toNat)

/-- R42: LW, SW and the fetch need a multiple of 4 and else raise with no access made and no register written; LB and SB
have no alignment requirement, they raise no address error. -/
def Obligations.MisalignedWordAccessesRaise : Prop :=
  ∀ (s : State) (rt rs : RegNum) (offset : Imm16),
    let addr := effectiveAddress s rs offset
    (addr.toNat % 4 ≠ 0 →
      exec (.lw rt offset rs) s = .next { s with fault := some (.addressErrorLoad addr) } ∧
      exec (.sw rt offset rs) s = .next { s with fault := some (.addressErrorStore addr) }) ∧
    (s.fault = none → s.halted = none → s.pc.toNat % 4 ≠ 0 →
      step s = .next { s with fault := some (.addressErrorFetch s.pc) }) ∧
    (s.fault = none → ∀ (t : State) (a : Word),
      (exec (.lb rt offset rs) s = .next t ∨ exec (.sb rt offset rs) s = .next t) →
      t.fault ≠ some (.addressErrorLoad a) ∧ t.fault ≠ some (.addressErrorStore a))

/-- R203, R211: an access that `MEM_MAP` refuses raises its bus error, after the alignment check and before the check on
the program text; a store that would write a byte of the program text raises under `SMC = refuse`. That the text is the
bytes of the words that may be fetched is log 8. -/
def Obligations.RefusedAccessesRaiseWithTheirAddress : Prop :=
  ∀ (s : State) (rt rs : RegNum) (offset : Imm16),
    let addr := effectiveAddress s rs offset
    (admits s.params .read .byte addr = false →
      exec (.lb rt offset rs) s = .next { s with fault := some (.busErrorLoad addr) }) ∧
    (addr.toNat % 4 = 0 → admits s.params .read .word addr = false →
      exec (.lw rt offset rs) s = .next { s with fault := some (.busErrorLoad addr) }) ∧
    (admits s.params .write .byte addr = false →
      exec (.sb rt offset rs) s = .next { s with fault := some (.busErrorStore addr) }) ∧
    (addr.toNat % 4 = 0 → admits s.params .write .word addr = false →
      exec (.sw rt offset rs) s = .next { s with fault := some (.busErrorStore addr) }) ∧
    (admits s.params .write .byte addr = true → s.params.smc = .refuse →
      admits s.params .fetch .word (addr - BitVec.ofNat 32 (addr.toNat % 4)) = true →
      exec (.sb rt offset rs) s = .next { s with fault := some (.storeToText addr) }) ∧
    (addr.toNat % 4 = 0 → admits s.params .write .word addr = true → s.params.smc = .refuse →
      admits s.params .fetch .word addr = true →
      exec (.sw rt offset rs) s = .next { s with fault := some (.storeToText addr) })

/-- R153: SB, where the map admits it and the text does not forbid it, changes exactly the byte at its effective
address, to the low byte of the register. -/
def Obligations.StoreByteChangesExactlyOneByte : Prop :=
  ∀ (s : State) (rt rs : RegNum) (offset : Imm16),
    let addr := effectiveAddress s rs offset
    s.mem.wf = true → admits s.params .write .byte addr = true →
    (s.params.smc = .coherent ∨ inText s.params addr = false) →
    ∃ t, exec (.sb rt offset rs) s = .next t ∧
      StoreEffect s t addr 1 fun _ => BitVec.ofNat 8 (readReg s rt).toNat

/-- R154, R41: SW, at an aligned effective address where the map admits it and the text does not forbid it, changes
exactly four bytes, to those of the register in `BYTE_ORDER`. -/
def Obligations.StoreWordChangesExactlyFourBytes : Prop :=
  ∀ (s : State) (rt rs : RegNum) (offset : Imm16),
    let addr := effectiveAddress s rs offset
    s.mem.wf = true → addr.toNat % 4 = 0 → admits s.params .write .word addr = true →
    (s.params.smc = .coherent ∨ admits s.params .fetch .word addr = false) →
    ∃ t, exec (.sw rt offset rs) s = .next t ∧
      StoreEffect s t addr 4 fun k =>
        match s.params.byteOrder with
        | .big => BitVec.ofNat 8 ((readReg s rt).toNat / 2 ^ (8 * (3 - k)))
        | .little => BitVec.ofNat 8 ((readReg s rt).toNat / 2 ^ (8 * k))

/-- R50: a load after a store to the same word sees the store. -/
def Obligations.LoadWordAfterStoreWordReadsItBack : Prop :=
  ∀ (s t u : State) (rt rs rt' rs' : RegNum) (offset offset' : Imm16),
    s.mem.wf = true → s.fault = none →
    exec (.sw rt offset rs) s = .next t → t.fault = none →
    effectiveAddress t rs' offset' = effectiveAddress s rs offset →
    exec (.lw rt' offset' rs') t = .next u → u.fault = none → rt' ≠ 0#5 →
    readReg u rt' = readReg s rt

/-- The model's choice of R233, treatment (a) (log 6): an admitted load, or an aligned admitted fetch, that meets a byte
with no value stops by name. -/
def Obligations.LoadsOfUnwrittenBytesStopByName : Prop :=
  ∀ (s : State) (rt rs : RegNum) (offset : Imm16),
    let addr := effectiveAddress s rs offset
    (admits s.params .read .byte addr = true → memByte s.mem addr.toNat = none →
      exec (.lb rt offset rs) s = .fault (.readUnspecified addr)) ∧
    (addr.toNat % 4 = 0 → admits s.params .read .word addr = true →
      (∃ k < 4, memByte s.mem (addr.toNat + k) = none) →
      exec (.lw rt offset rs) s = .fault (.readUnspecified addr)) ∧
    (s.fault = none → s.halted = none → s.pc.toNat % 4 = 0 → admits s.params .fetch .word s.pc = true →
      (∃ k < 4, memByte s.mem (s.pc.toNat + k) = none) →
      step s = .fault (.readUnspecified s.pc))

/-! ## Shifts (spec/45_shift.md) -/

/-- R161: NOOP only advances the pc; its word is 0, and `sll $0, $0, 0` has the same word and the same effect. -/
def Obligations.NoopOnlyAdvancesThePc : Prop :=
  (∀ s : State, (∃ t, exec .noop s = .next t ∧ JumpEffect s t (s.npc + 4)) ∧
    exec (.sll 0#5 0#5 0#5) s = exec .noop s) ∧
    decode 0#32 = .ok .noop ∧ encode .noop = 0#32 ∧ encode (.sll 0#5 0#5 0#5) = 0#32

/-- R162, R164, R165: the three fixed shifts, bit by bit; zeroes are shifted in, and the sign bit by SRA. -/
def Obligations.FixedShiftsMoveBitsByShamt : Prop :=
  ∀ (s : State) (rd rt : RegNum) (shamt : Shamt),
    let a := readReg s rt
    let n := shamt.toNat
    (∃ t v, exec (.sll rd rt shamt) s = .next t ∧ RegEffect s t rd v ∧
      ∀ k < 32, v.getLsbD k = if n ≤ k then a.getLsbD (k - n) else false) ∧
    (∃ t v, exec (.srl rd rt shamt) s = .next t ∧ RegEffect s t rd v ∧
      ∀ k < 32, v.getLsbD k = if k + n ≤ 31 then a.getLsbD (k + n) else false) ∧
    (∃ t v, exec (.sra rd rt shamt) s = .next t ∧ RegEffect s t rd v ∧
      ∀ k < 32, v.getLsbD k = if k + n ≤ 31 then a.getLsbD (k + n) else a.getLsbD 31)

/-- R163, R166, R160: the shifts by a register use its low 5 bits as the amount. -/
def Obligations.VariableShiftsUseTheLowFiveBits : Prop :=
  ∀ (s : State) (rd rt rs : RegNum),
    let a := readReg s rt
    let n := (readReg s rs).toNat % 32
    (∃ t v, exec (.sllv rd rt rs) s = .next t ∧ RegEffect s t rd v ∧ v.toNat = a.toNat * 2 ^ n % 2 ^ 32) ∧
    (∃ t v, exec (.srlv rd rt rs) s = .next t ∧ RegEffect s t rd v ∧ v.toNat = a.toNat / 2 ^ n)

/-! ## Set on less than (spec/46_compare.md) -/

/-- R170: SLT and SLTI compare signed readings, SLTU and SLTIU unsigned ones, strictly; the immediate is
sign-extended in both immediate forms; the result is 1 or 0. -/
def Obligations.ComparisonsWriteOneOrZero : Prop :=
  ∀ (s : State) (rd rs rt : RegNum) (imm : Imm16),
    let a := readReg s rs
    let b := readReg s rt
    (∃ t, exec (.slt rd rs rt) s = .next t ∧ RegEffect s t rd (if a.toInt < b.toInt then 1#32 else 0#32)) ∧
    (∃ t, exec (.sltu rd rs rt) s = .next t ∧ RegEffect s t rd (if a.toNat < b.toNat then 1#32 else 0#32)) ∧
    (∃ t, exec (.slti rt rs imm) s = .next t ∧ RegEffect s t rt (if a.toInt < imm.toInt then 1#32 else 0#32)) ∧
    (∃ t, exec (.sltiu rt rs imm) s = .next t ∧
      RegEffect s t rt (if (a.toNat : Int) < imm.toInt % 2 ^ 32 then 1#32 else 0#32))

/-! ## SYSCALL (spec/47_system.md) -/

/-- R180, R181, R182: SYSCALL advances the pc and calls the environment with the whole word, the one that decodes to it
with its ignored bits `code` (log 18), and the whole state after `advance_pc(4)`. On `halt` nothing else changes and the
run has ended; on `resume` the general registers but `x[0]`, `hi`, `lo` and the memory are those of the answer. What the
environment answers under a setting other than `halt` is a free function (log 9). -/
def Obligations.SyscallHandsTheStateToTheEnvironment : Prop :=
  ∀ (s : State) (code : SyscallCode),
    ∃ t w, w.toNat = code.toNat * 2 ^ 6 + 12 ∧ (∀ v, decode v = .ok (.syscall code) ↔ v = w) ∧
      exec (.syscall code) s = .next t ∧
      Advanced s t ∧ t.params = s.params ∧ t.fault = s.fault ∧ t.draws = s.draws ∧
      match (match s.params.envSyscall with
        | .halt => Config.EnvAnswer.halt
        | .environment => Config.envSyscall
            { w := w, x := s.x, hi := s.hi, lo := s.lo, pc := s.npc, npc := s.npc + 4, mem := s.mem }) with
      | .halt => t.halted = some w ∧ SameRegs s t ∧ SameHiLo s t ∧ SameMem s t
      | .resume x hi lo mem =>
        t.halted = s.halted ∧ t.hi = hi ∧ t.lo = lo ∧
          (∀ r : RegNum, readReg t r = if r = 0#5 then 0#32 else x[r.toNat]'r.isLt) ∧
          (Memory.wf mem = true → SameMem { s with mem := mem } t)

/-! ## Launch and reset (spec/10_state.md R32, spec/70_reset_and_hazards.md R230) -/

/-- R230: the launch state has `pc = ENTRY`, `npc = ENTRY + 4`, `x[0] = 0`, `fault` empty, and everything else from
`INIT`. -/
def Obligations.LaunchStateIsBuiltFromEntryAndInit : Prop :=
  ∀ (p : Config.Params) (entry : Word) (init : Init),
    let s := launch p entry init
    s.pc = entry ∧ s.npc = entry + 4 ∧ readReg s 0#5 = 0#32 ∧ s.fault = none ∧
      (∀ r : RegNum, r ≠ 0#5 → readReg s r = init.x[r.toNat]'r.isLt) ∧ s.hi = init.hi ∧ s.lo = init.lo ∧
      s.params = p ∧ (Memory.wf init.mem = true → ∀ a : Nat, memByte s.mem a = memByte init.mem a)

/-- The state after reset meets the launch premises of R235 and has the values the model chose where the spec gives none
(log 1 to 6). It is about this one state; `NoStepChangesTheParameters` and `LaunchMeetsTheLaunchPremises` are the general
statements. -/
def Obligations.ResetStateMeetsTheLaunchPremises : Prop :=
  LaunchPremises State.reset ∧ State.reset.pc = 0x00400000#32 ∧ State.reset.params.byteOrder = .big ∧
    (∀ r : RegNum, readReg State.reset r = 0#32) ∧ State.reset.hi = 0#32 ∧ State.reset.lo = 0#32 ∧
    ∀ a : Nat, memByte State.reset.mem a = none

/-- R235: every launch at an entry that is a multiple of 4 and may be fetched meets the launch premises. The text, which
the model takes from `MEM_MAP` (log 8), admits a fetch at each of its addresses, and under `SMC = refuse` it is the same
in every state of every run from there. -/
def Obligations.LaunchMeetsTheLaunchPremises : Prop :=
  ∀ (p : Config.Params) (entry : Word) (init : Init),
    entry.toNat % 4 = 0 → admits p .fetch .word entry = true → LaunchPremises (launch p entry init)
end

