-- ==== Sys2Proof/Laws/Encoding.lean ====
section
/-! SUPPORT. The fields of an encoded word: what each field of spec/30_encoding.md R61 reads from each operand put in
its place by R76. With these a decoding of an encoding is computed by simp. -/

namespace Sys2Proof

/-! ## A field of an or is the or of the fields -/

@[simp] theorem opcodeOf_or (a b : Word) : opcodeOf (a ||| b) = opcodeOf a ||| opcodeOf b := by
  simp only [opcodeOf, BitVec.extractLsb'_or]

@[simp] theorem rsOf_or (a b : Word) : rsOf (a ||| b) = rsOf a ||| rsOf b := by
  simp only [rsOf, BitVec.extractLsb'_or]

@[simp] theorem rtOf_or (a b : Word) : rtOf (a ||| b) = rtOf a ||| rtOf b := by
  simp only [rtOf, BitVec.extractLsb'_or]

@[simp] theorem rdOf_or (a b : Word) : rdOf (a ||| b) = rdOf a ||| rdOf b := by
  simp only [rdOf, BitVec.extractLsb'_or]

@[simp] theorem shamtOf_or (a b : Word) : shamtOf (a ||| b) = shamtOf a ||| shamtOf b := by
  simp only [shamtOf, BitVec.extractLsb'_or]

@[simp] theorem functOf_or (a b : Word) : functOf (a ||| b) = functOf a ||| functOf b := by
  simp only [functOf, BitVec.extractLsb'_or]

@[simp] theorem imm16Of_or (a b : Word) : imm16Of (a ||| b) = imm16Of a ||| imm16Of b := by
  simp only [imm16Of, BitVec.extractLsb'_or]

@[simp] theorem target26Of_or (a b : Word) : target26Of (a ||| b) = target26Of a ||| target26Of b := by
  simp only [target26Of, BitVec.extractLsb'_or]

@[simp] theorem syscallCodeOf_or (a b : Word) : syscallCodeOf (a ||| b) = syscallCodeOf a ||| syscallCodeOf b := by
  simp only [syscallCodeOf, BitVec.extractLsb'_or]

/-! ## A field of an and is the and of the fields -/

@[simp] theorem opcodeOf_and (a b : Word) : opcodeOf (a &&& b) = opcodeOf a &&& opcodeOf b := by
  simp only [opcodeOf, BitVec.extractLsb'_and]

@[simp] theorem rsOf_and (a b : Word) : rsOf (a &&& b) = rsOf a &&& rsOf b := by
  simp only [rsOf, BitVec.extractLsb'_and]

@[simp] theorem rtOf_and (a b : Word) : rtOf (a &&& b) = rtOf a &&& rtOf b := by
  simp only [rtOf, BitVec.extractLsb'_and]

@[simp] theorem rdOf_and (a b : Word) : rdOf (a &&& b) = rdOf a &&& rdOf b := by
  simp only [rdOf, BitVec.extractLsb'_and]

@[simp] theorem shamtOf_and (a b : Word) : shamtOf (a &&& b) = shamtOf a &&& shamtOf b := by
  simp only [shamtOf, BitVec.extractLsb'_and]

@[simp] theorem functOf_and (a b : Word) : functOf (a &&& b) = functOf a &&& functOf b := by
  simp only [functOf, BitVec.extractLsb'_and]

@[simp] theorem imm16Of_and (a b : Word) : imm16Of (a &&& b) = imm16Of a &&& imm16Of b := by
  simp only [imm16Of, BitVec.extractLsb'_and]

@[simp] theorem target26Of_and (a b : Word) : target26Of (a &&& b) = target26Of a &&& target26Of b := by
  simp only [target26Of, BitVec.extractLsb'_and]

@[simp] theorem syscallCodeOf_and (a b : Word) : syscallCodeOf (a &&& b) = syscallCodeOf a &&& syscallCodeOf b := by
  simp only [syscallCodeOf, BitVec.extractLsb'_and]

/-! ## A field read where an operand was put

A field cut at `lo` from an operand put at `at'`: the operand itself where the two places are the same, and 0 where
they do not meet. -/

theorem extract_place_same {n : Nat} (r : BitVec n) (lo : Nat) (h : lo + n ≤ 32) :
    (r.setWidth 32 <<< lo).extractLsb' lo n = r := by
  ext i hi
  simp only [BitVec.getElem_extractLsb', BitVec.getLsbD_shiftLeft, BitVec.getLsbD_setWidth]
  simp only [Nat.add_sub_cancel_left, ← BitVec.getLsbD_eq_getElem]
  have h1 : lo + i < 32 := by omega
  have h2 : i < 32 := by omega
  simp [h1, h2]

theorem extract_place_above {n m : Nat} (r : BitVec n) (put lo : Nat) (h : put + n ≤ lo) :
    (r.setWidth 32 <<< put).extractLsb' lo m = 0 := by
  ext i hi
  simp only [BitVec.getElem_extractLsb', BitVec.getLsbD_shiftLeft, BitVec.getLsbD_setWidth]
  have h1 : r.getLsbD (lo + i - put) = false := BitVec.getLsbD_of_ge _ _ (by omega)
  simp [h1]

theorem extract_place_below {n m : Nat} (r : BitVec n) (put lo : Nat) (h : lo + m ≤ put) :
    (r.setWidth 32 <<< put).extractLsb' lo m = 0 := by
  ext i hi
  simp only [BitVec.getElem_extractLsb', BitVec.getLsbD_shiftLeft]
  have h1 : lo + i < put := by omega
  simp [h1]

@[simp] theorem opcodeOf_atRs (r : RegNum) : opcodeOf (atRs r) = 0 :=
  extract_place_above r 21 26 (by decide)

@[simp] theorem rsOf_atRs (r : RegNum) : rsOf (atRs r) = r :=
  extract_place_same r 21 (by decide)

@[simp] theorem rtOf_atRs (r : RegNum) : rtOf (atRs r) = 0 :=
  extract_place_below r 21 16 (by decide)

@[simp] theorem rdOf_atRs (r : RegNum) : rdOf (atRs r) = 0 :=
  extract_place_below r 21 11 (by decide)

@[simp] theorem shamtOf_atRs (r : RegNum) : shamtOf (atRs r) = 0 :=
  extract_place_below r 21 6 (by decide)

@[simp] theorem functOf_atRs (r : RegNum) : functOf (atRs r) = 0 :=
  extract_place_below r 21 0 (by decide)

@[simp] theorem imm16Of_atRs (r : RegNum) : imm16Of (atRs r) = 0 :=
  extract_place_below r 21 0 (by decide)

@[simp] theorem opcodeOf_atRt (r : RegNum) : opcodeOf (atRt r) = 0 :=
  extract_place_above r 16 26 (by decide)

@[simp] theorem rsOf_atRt (r : RegNum) : rsOf (atRt r) = 0 :=
  extract_place_above r 16 21 (by decide)

@[simp] theorem rtOf_atRt (r : RegNum) : rtOf (atRt r) = r :=
  extract_place_same r 16 (by decide)

@[simp] theorem rdOf_atRt (r : RegNum) : rdOf (atRt r) = 0 :=
  extract_place_below r 16 11 (by decide)

@[simp] theorem shamtOf_atRt (r : RegNum) : shamtOf (atRt r) = 0 :=
  extract_place_below r 16 6 (by decide)

@[simp] theorem functOf_atRt (r : RegNum) : functOf (atRt r) = 0 :=
  extract_place_below r 16 0 (by decide)

@[simp] theorem imm16Of_atRt (r : RegNum) : imm16Of (atRt r) = 0 :=
  extract_place_below r 16 0 (by decide)

@[simp] theorem opcodeOf_atRd (r : RegNum) : opcodeOf (atRd r) = 0 :=
  extract_place_above r 11 26 (by decide)

@[simp] theorem rsOf_atRd (r : RegNum) : rsOf (atRd r) = 0 :=
  extract_place_above r 11 21 (by decide)

@[simp] theorem rtOf_atRd (r : RegNum) : rtOf (atRd r) = 0 :=
  extract_place_above r 11 16 (by decide)

@[simp] theorem rdOf_atRd (r : RegNum) : rdOf (atRd r) = r :=
  extract_place_same r 11 (by decide)

@[simp] theorem shamtOf_atRd (r : RegNum) : shamtOf (atRd r) = 0 :=
  extract_place_below r 11 6 (by decide)

@[simp] theorem functOf_atRd (r : RegNum) : functOf (atRd r) = 0 :=
  extract_place_below r 11 0 (by decide)

@[simp] theorem opcodeOf_atShamt (r : Shamt) : opcodeOf (atShamt r) = 0 :=
  extract_place_above r 6 26 (by decide)

@[simp] theorem rsOf_atShamt (r : Shamt) : rsOf (atShamt r) = 0 :=
  extract_place_above r 6 21 (by decide)

@[simp] theorem rtOf_atShamt (r : Shamt) : rtOf (atShamt r) = 0 :=
  extract_place_above r 6 16 (by decide)

@[simp] theorem rdOf_atShamt (r : Shamt) : rdOf (atShamt r) = 0 :=
  extract_place_above r 6 11 (by decide)

@[simp] theorem shamtOf_atShamt (r : Shamt) : shamtOf (atShamt r) = r :=
  extract_place_same r 6 (by decide)

@[simp] theorem functOf_atShamt (r : Shamt) : functOf (atShamt r) = 0 :=
  extract_place_below r 6 0 (by decide)

@[simp] theorem opcodeOf_atImm16 (r : Imm16) : opcodeOf (atImm16 r) = 0 := by
  simpa [opcodeOf, atImm16] using extract_place_above r 0 26 (m := 6) (by decide)

@[simp] theorem rsOf_atImm16 (r : Imm16) : rsOf (atImm16 r) = 0 := by
  simpa [rsOf, atImm16] using extract_place_above r 0 21 (m := 5) (by decide)

@[simp] theorem rtOf_atImm16 (r : Imm16) : rtOf (atImm16 r) = 0 := by
  simpa [rtOf, atImm16] using extract_place_above r 0 16 (m := 5) (by decide)

@[simp] theorem imm16Of_atImm16 (r : Imm16) : imm16Of (atImm16 r) = r := by
  simpa [imm16Of, atImm16] using extract_place_same r 0 (by decide)

@[simp] theorem opcodeOf_atTarget26 (r : Target26) : opcodeOf (atTarget26 r) = 0 := by
  simpa [opcodeOf, atTarget26] using extract_place_above r 0 26 (m := 6) (by decide)

@[simp] theorem target26Of_atTarget26 (r : Target26) : target26Of (atTarget26 r) = r := by
  simpa [target26Of, atTarget26] using extract_place_same r 0 (by decide)

@[simp] theorem opcodeOf_atSyscallCode (r : SyscallCode) : opcodeOf (atSyscallCode r) = 0 :=
  extract_place_above r 6 26 (by decide)

@[simp] theorem functOf_atSyscallCode (r : SyscallCode) : functOf (atSyscallCode r) = 0 :=
  extract_place_below r 6 0 (by decide)

@[simp] theorem syscallCodeOf_atSyscallCode (r : SyscallCode) : syscallCodeOf (atSyscallCode r) = r :=
  extract_place_same r 6 (by decide)

/-! ## The whole word of a SYSCALL (R180) -/

/-- A word is put together again from its opcode, its bits 25:6 and its function code. -/
theorem eq_opcode_code_funct (w : Word) :
    w = (opcodeOf w).setWidth 32 <<< 26 ||| atSyscallCode (syscallCodeOf w) ||| (functOf w).setWidth 32 := by
  have bits : ∀ i < 32, w.getLsbD i =
      ((opcodeOf w).setWidth 32 <<< 26 ||| atSyscallCode (syscallCodeOf w) ||| (functOf w).setWidth 32).getLsbD i := by
    intro i hi
    unfold opcodeOf atSyscallCode syscallCodeOf functOf
    interval_cases i <;> simp
  exact BitVec.eq_of_getLsbD_eq bits

/-- The fields of a word that decodes to SYSCALL (R67). -/
theorem fields_of_decode_syscall {w : Word} {code : SyscallCode} (h : decode w = .ok (.syscall code)) :
    opcodeOf w = 0b000000 ∧ functOf w = 0b001100 ∧ syscallCodeOf w = code := by
  unfold decode at h
  split at h
  · next ho =>
    unfold decodeFunct at h
    split at h
    case h_7 hf => exact ⟨BitVec.eq_of_toNat_eq ho, BitVec.eq_of_toNat_eq hf, by injection h with h; injection h⟩
    all_goals (try unfold decodeWhen at h); (try split at h) <;> simp_all
  · unfold decodeRtSelector at h; split at h <;> simp at h
  all_goals (try unfold decodeWhen at h); (try split at h) <;> simp at h

/-- The only word that decodes to a SYSCALL is the one `syscallWord` rebuilds from the bits kept: the environment
receives the word that was fetched, and no bit of it is lost. -/
theorem decode_eq_syscall {w : Word} {code : SyscallCode} :
    decode w = .ok (.syscall code) ↔ w = syscallWord code := by
  constructor
  · intro h
    obtain ⟨ho, hf, hc⟩ := fields_of_decode_syscall h
    rw [eq_opcode_code_funct w, ho, hf, hc, syscallWord, BitVec.or_comm 0x0000000C]
    simp
  · rintro rfl
    have opcode : opcodeOf (syscallWord code) = 0b000000 := by simp [syscallWord]; decide
    have funct : functOf (syscallWord code) = 0b001100 := by simp [syscallWord]; decide
    have kept : syscallCodeOf (syscallWord code) = code := by
      have low : syscallCodeOf 0x0000000C#32 = 0 := by decide
      simp [syscallWord, low]
    simp [decode, decodeFunct, opcode, funct, kept]

/-! ## Four bytes of a word -/

theorem concatBytes_extract (v : Word) :
    concatBytes (v.extractLsb' 24 8) (v.extractLsb' 16 8) (v.extractLsb' 8 8) (v.extractLsb' 0 8) = v := by
  have bits : ∀ i < 32, (concatBytes (v.extractLsb' 24 8) (v.extractLsb' 16 8) (v.extractLsb' 8 8)
      (v.extractLsb' 0 8)).getLsbD i = v.getLsbD i := by
    intro i hi
    unfold concatBytes
    interval_cases i <;> simp
  ext i hi
  simpa only [← BitVec.getLsbD_eq_getElem] using bits i hi

/-- The bytes of a word, assembled in the same order, are the word (R41, R43). -/
@[simp] theorem joinBytes_wordBytes (o : Config.ByteOrder) (v : Word) :
    joinBytes o (wordBytes o v)[0] (wordBytes o v)[1] (wordBytes o v)[2] (wordBytes o v)[3] = v := by
  cases o <;> exact concatBytes_extract v

/-! ## Match and mask against fields (R62) -/

/-- A word selects under two masks together exactly when it selects under each (R62). -/
theorem select_or (w a b m : Word) (h : m &&& ~~~(a ||| b) = 0#32) :
    w &&& (a ||| b) = m ↔ w &&& a = m &&& a ∧ w &&& b = m &&& b := by
  constructor
  · rintro rfl
    constructor <;> (apply BitVec.eq_of_getLsbD_eq; intro i hi; simp only [BitVec.getLsbD_and, BitVec.getLsbD_or]) <;>
      cases w.getLsbD i <;> cases a.getLsbD i <;> cases b.getLsbD i <;> rfl
  · rintro ⟨h1, h2⟩
    apply BitVec.eq_of_getLsbD_eq
    intro i hi
    have e1 := congrArg (BitVec.getLsbD · i) h1
    have e2 := congrArg (BitVec.getLsbD · i) h2
    have e3 := congrArg (BitVec.getLsbD · i) h
    simp only [BitVec.getLsbD_and, BitVec.getLsbD_or, BitVec.getLsbD_not, BitVec.getLsbD_zero] at e1 e2 e3 ⊢
    revert e1 e2 e3
    cases w.getLsbD i <;> cases a.getLsbD i <;> cases b.getLsbD i <;> cases m.getLsbD i <;> simp [hi]

/-- A mask over one field selects exactly the words with that value in the field (R61, R62). -/
theorem select_field (w : Word) (lo n : Nat) (v : BitVec n) (h : lo + n ≤ 32) :
    w &&& ((BitVec.allOnes n).setWidth 32 <<< lo) = v.setWidth 32 <<< lo ↔ w.extractLsb' lo n = v := by
  constructor
  · intro h1
    apply BitVec.eq_of_getLsbD_eq
    intro i hi
    have e := congrArg (BitVec.getLsbD · (lo + i)) h1
    have h2 : lo + i < 32 := by omega
    have h3 : i < 32 := by omega
    simpa [hi, h2, h3] using e
  · rintro rfl
    apply BitVec.eq_of_getLsbD_eq
    intro i hi
    by_cases h4 : i < lo
    · simp [h4]
    · by_cases h5 : i - lo < n
      · have h6 : lo + (i - lo) = i := by omega
        simp [h4, h5, h6, hi, Bool.and_comm]
      · simp [h4, h5]

end Sys2Proof
end

