-- ==== Sys2Proof/Laws/Memory.lean ====
section
/-! SUPPORT. Memory (spec/20_memory.md R40 to R44): read after write, and every memory operation keeps the canonical
form. -/

namespace Sys2Proof.Machine

/-! ## The canonical form -/

theorem Memory.wf_iff (m : Memory) :
    m.wf = true ↔ m.Pairwise (fun c d => c.1 < d.1) ∧ ∀ c ∈ m, c.1 < 2 ^ 32 ∧ unlistedByte c.1 ≠ some c.2 := by
  simp [Memory.wf]

theorem wf_nil : Memory.wf [] = true := rfl

/-- An address below all those listed is not listed. -/
theorem memByte_of_below {m : Memory} {a : Nat} (h : ∀ c ∈ m, a < c.1) : memByte m a = unlistedByte a := by
  induction m with
  | nil => rfl
  | cons c m ih =>
    have hc := h c (by simp)
    have : ¬c.1 = a := by omega
    simp only [memByte, this, if_false]
    exact ih fun d hd => h d (by simp [hd])

/-! ## Inserting -/

theorem mem_memInsert {m : Memory} {a : Nat} {b : Byte} {c : Host.Cell} (h : c ∈ memInsert m a b) :
    c = (a, b) ∨ c ∈ m := by
  induction m with
  | nil => simpa [memInsert] using h
  | cons d m ih =>
    simp only [memInsert] at h
    split at h
    · simpa using h
    · split at h
      · rcases List.mem_cons.mp h with h | h
        · exact .inl h
        · exact .inr (by simp [h])
      · rcases List.mem_cons.mp h with h | h
        · exact .inr (by simp [h])
        · exact (ih h).imp id fun h => by simp [h]

theorem memInsert_pairwise {m : Memory} (a : Nat) (b : Byte) (h : m.Pairwise fun c d => c.1 < d.1) :
    (memInsert m a b).Pairwise fun c d => c.1 < d.1 := by
  induction m with
  | nil => simp [memInsert]
  | cons d m ih =>
    have hm := List.pairwise_cons.mp h
    simp only [memInsert]
    split
    · next hlt =>
      refine List.pairwise_cons.mpr ⟨fun c hc => ?_, h⟩
      rcases List.mem_cons.mp hc with hc | hc
      · subst hc; exact hlt
      · have := hm.1 c hc; simp only at *; omega
    · split
      · next heq => exact List.pairwise_cons.mpr ⟨fun c hc => by have := hm.1 c hc; simp only at *; omega, hm.2⟩
      · refine List.pairwise_cons.mpr ⟨fun c hc => ?_, ih hm.2⟩
        rcases mem_memInsert hc with hc | hc
        · subst hc; simp only; omega
        · exact hm.1 c hc

theorem memByte_memInsert (m : Memory) (a a' : Nat) (b : Byte) :
    memByte (memInsert m a b) a' = if a' = a then some b else memByte m a' := by
  induction m with
  | nil => simp only [memInsert, memByte, eq_comm]
  | cons d m ih =>
    simp only [memInsert]
    split
    · simp only [memByte, eq_comm]
    · split
      · next heq =>
        simp only [memByte, heq]
        by_cases h : d.1 = a'
        · simp [h]
        · have : ¬a' = d.1 := fun e => h e.symm
          simp [h, this]
      · next hne =>
        simp only [memByte, ih]
        by_cases h : d.1 = a'
        · have : ¬a' = a := by omega
          simp [h, this]
        · simp [h]

/-! ## Erasing -/

theorem mem_memErase {m : Memory} {a : Nat} {c : Host.Cell} (h : c ∈ memErase m a) : c ∈ m := by
  induction m with
  | nil => simp [memErase] at h
  | cons d m ih =>
    simp only [memErase] at h
    split at h
    · simp [h]
    · rcases List.mem_cons.mp h with h | h
      · simp [h]
      · simp [ih h]

theorem memErase_pairwise {m : Memory} (a : Nat) (h : m.Pairwise fun c d => c.1 < d.1) :
    (memErase m a).Pairwise fun c d => c.1 < d.1 := by
  induction m with
  | nil => simp [memErase]
  | cons d m ih =>
    have hm := List.pairwise_cons.mp h
    simp only [memErase]
    split
    · exact hm.2
    · exact List.pairwise_cons.mpr ⟨fun c hc => hm.1 c (mem_memErase hc), ih hm.2⟩

theorem memByte_memErase {m : Memory} (h : m.Pairwise fun c d => c.1 < d.1) (a a' : Nat) :
    memByte (memErase m a) a' = if a' = a then unlistedByte a' else memByte m a' := by
  induction m with
  | nil => simp [memErase, memByte]
  | cons d m ih =>
    have hm := List.pairwise_cons.mp h
    simp only [memErase]
    split
    · next heq =>
      subst heq
      by_cases h' : a' = d.1
      · subst h'; simp only [if_true]; exact memByte_of_below hm.1
      · have : ¬d.1 = a' := fun e => h' e.symm
        simp [memByte, h', this]
    · next hne =>
      simp only [memByte, ih hm.2]
      by_cases h' : d.1 = a'
      · have : ¬a' = a := by omega
        simp [h', this]
      · simp [h']

/-! ## `MEM[a] <- b` -/

/-- Read after write, on a memory in canonical form. -/
theorem memByte_memSet {m : Memory} (h : m.wf = true) (a a' : Nat) (b : Byte) :
    memByte (memSet m a b) a' = if a' = a then some b else memByte m a' := by
  unfold memSet
  split
  · next hu =>
    rw [memByte_memErase ((Memory.wf_iff m).mp h).1]
    by_cases h' : a' = a
    · subst h'; simp [hu]
    · simp [h']
  · exact memByte_memInsert m a a' b

theorem memSet_wf {m : Memory} (h : m.wf = true) {a : Nat} (ha : a < 2 ^ 32) (b : Byte) :
    (memSet m a b).wf = true := by
  have hm := (Memory.wf_iff m).mp h
  rw [Memory.wf_iff]
  unfold memSet
  split
  · exact ⟨memErase_pairwise a hm.1, fun c hc => hm.2 c (mem_memErase hc)⟩
  · next hu =>
    refine ⟨memInsert_pairwise a b hm.1, fun c hc => ?_⟩
    rcases mem_memInsert hc with hc | hc
    · subst hc; exact ⟨ha, hu⟩
    · exact hm.2 c hc

/-- A launch's or an environment's memory is in canonical form. -/
theorem memOfCells_wf (cells : List Host.Cell) : (memOfCells cells).wf = true := by
  have keep : ∀ (l : List Host.Cell) (m : Memory), m.wf = true →
      (l.foldl (fun m c => if c.1 < 2 ^ 32 then memSet m c.1 c.2 else m) m).wf = true := by
    intro l
    induction l with
    | nil => exact fun m h => h
    | cons c l ih =>
      intro m h
      refine ih _ ?_
      dsimp only
      split
      · next hc => exact memSet_wf h hc c.2
      · exact h
  exact keep cells [] wf_nil

/-! ## A word written and read back -/

/-- An aligned address leaves room for its word below 2^32. -/
theorem aligned_iff (addr : Word) : aligned addr = true ↔ addr.toNat % 4 = 0 := by
  unfold aligned
  rw [beq_iff_eq, ← BitVec.toNat_inj]
  simp

/-- An aligned address is the address of its word. -/
theorem wordBase_of_aligned {addr : Word} (h : aligned addr = true) : wordBase addr = addr := by
  have low : ∀ i < 2, addr.getLsbD i = false := by
    intro i hi
    have e := congrArg (BitVec.getLsbD · i) (beq_iff_eq.mp h : addr.extractLsb' 0 2 = 0)
    simpa [hi] using e
  unfold wordBase
  apply BitVec.eq_of_getLsbD_eq
  intro i hi
  rw [BitVec.getLsbD_and]
  by_cases h2 : i < 2
  · rw [low i h2, Bool.false_and]
  · interval_cases i <;> simp_all

theorem aligned_bound {addr : Word} (h : aligned addr = true) : addr.toNat + 3 < 2 ^ 32 := by
  have h4 := (aligned_iff addr).mp h
  have := addr.isLt
  omega

theorem memSetWord_wf {m : Memory} (h : m.wf = true) (o : Config.ByteOrder) {addr : Word}
    (ha : aligned addr = true) (v : Word) : (memSetWord o m addr v).wf = true := by
  have hb := aligned_bound ha
  unfold memSetWord
  exact memSet_wf (memSet_wf (memSet_wf (memSet_wf h (by omega) _) (by omega) _) (by omega) _) (by omega) _

/-- A byte after a word is written: one of the four bytes of the word, or what it was. -/
theorem memByte_memSetWord {m : Memory} (h : m.wf = true) (o : Config.ByteOrder) {addr : Word}
    (ha : aligned addr = true) (v : Word) (a : Nat) :
    memByte (memSetWord o m addr v) a =
      if a = addr.toNat + 3 then some (wordBytes o v)[3]
      else if a = addr.toNat + 2 then some (wordBytes o v)[2]
      else if a = addr.toNat + 1 then some (wordBytes o v)[1]
      else if a = addr.toNat then some (wordBytes o v)[0]
      else memByte m a := by
  have hb := aligned_bound ha
  have h0 := memSet_wf h (a := addr.toNat) (by omega) (wordBytes o v)[0]
  have h1 := memSet_wf h0 (a := addr.toNat + 1) (by omega) (wordBytes o v)[1]
  have h2 := memSet_wf h1 (a := addr.toNat + 2) (by omega) (wordBytes o v)[2]
  unfold memSetWord
  rw [memByte_memSet h2, memByte_memSet h1, memByte_memSet h0, memByte_memSet h]

/-- The frame of a word written. -/
theorem memByte_memSetWord_outside {m : Memory} (h : m.wf = true) (o : Config.ByteOrder) {addr : Word}
    (ha : aligned addr = true) (v : Word) {a : Nat} (out : a < addr.toNat ∨ addr.toNat + 4 ≤ a) :
    memByte (memSetWord o m addr v) a = memByte m a := by
  rw [memByte_memSetWord h o ha]
  have h3 : ¬a = addr.toNat + 3 := by omega
  have h2 : ¬a = addr.toNat + 2 := by omega
  have h1 : ¬a = addr.toNat + 1 := by omega
  have h0 : ¬a = addr.toNat := by omega
  simp [h3, h2, h1, h0]

/-- A word read back after it is written. -/
theorem memWord_memSetWord {m : Memory} (h : m.wf = true) (o : Config.ByteOrder) {addr : Word}
    (ha : aligned addr = true) (v : Word) : memWord o (memSetWord o m addr v) addr = some v := by
  have b := memByte_memSetWord h o ha v
  have e0 : memByte (memSetWord o m addr v) addr.toNat = some (wordBytes o v)[0] := by rw [b]; simp
  have e1 : memByte (memSetWord o m addr v) (addr.toNat + 1) = some (wordBytes o v)[1] := by rw [b]; simp
  have e2 : memByte (memSetWord o m addr v) (addr.toNat + 2) = some (wordBytes o v)[2] := by rw [b]; simp
  have e3 : memByte (memSetWord o m addr v) (addr.toNat + 3) = some (wordBytes o v)[3] := by rw [b]; simp
  simp [memWord, e0, e1, e2, e3]

end Sys2Proof.Machine
end

