-- ==== Sys2Proof/Laws/State.lean ====
section
/-! SUPPORT. The fields of a state after each update: one lemma per field per update, so that no later proof unfolds a
record update. -/

namespace Sys2Proof.Machine

/-! ## writeHiLo -/

@[simp] theorem writeHiLo_params (s : State) (h l : Word) : (writeHiLo s h l).params = s.params := rfl
@[simp] theorem writeHiLo_x (s : State) (h l : Word) : (writeHiLo s h l).x = s.x := rfl
@[simp] theorem writeHiLo_hi (s : State) (h l : Word) : (writeHiLo s h l).hi = h := rfl
@[simp] theorem writeHiLo_lo (s : State) (h l : Word) : (writeHiLo s h l).lo = l := rfl
@[simp] theorem writeHiLo_pc (s : State) (h l : Word) : (writeHiLo s h l).pc = s.pc := rfl
@[simp] theorem writeHiLo_npc (s : State) (h l : Word) : (writeHiLo s h l).npc = s.npc := rfl
@[simp] theorem writeHiLo_mem (s : State) (h l : Word) : (writeHiLo s h l).mem = s.mem := rfl
@[simp] theorem writeHiLo_fault (s : State) (h l : Word) : (writeHiLo s h l).fault = s.fault := rfl
@[simp] theorem writeHiLo_halted (s : State) (h l : Word) : (writeHiLo s h l).halted = s.halted := rfl
@[simp] theorem writeHiLo_draws (s : State) (h l : Word) : (writeHiLo s h l).draws = s.draws := rfl

/-! ## advancePc -/

@[simp] theorem advancePc_params (s : State) (k : Word) : (advancePc s k).params = s.params := rfl
@[simp] theorem advancePc_x (s : State) (k : Word) : (advancePc s k).x = s.x := rfl
@[simp] theorem advancePc_hi (s : State) (k : Word) : (advancePc s k).hi = s.hi := rfl
@[simp] theorem advancePc_lo (s : State) (k : Word) : (advancePc s k).lo = s.lo := rfl
@[simp] theorem advancePc_pc (s : State) (k : Word) : (advancePc s k).pc = s.npc := rfl
@[simp] theorem advancePc_npc (s : State) (k : Word) : (advancePc s k).npc = s.npc + k := rfl
@[simp] theorem advancePc_mem (s : State) (k : Word) : (advancePc s k).mem = s.mem := rfl
@[simp] theorem advancePc_fault (s : State) (k : Word) : (advancePc s k).fault = s.fault := rfl
@[simp] theorem advancePc_halted (s : State) (k : Word) : (advancePc s k).halted = s.halted := rfl
@[simp] theorem advancePc_draws (s : State) (k : Word) : (advancePc s k).draws = s.draws := rfl

/-! ## jumpTo -/

@[simp] theorem jumpTo_params (s : State) (t : Word) : (jumpTo s t).params = s.params := rfl
@[simp] theorem jumpTo_x (s : State) (t : Word) : (jumpTo s t).x = s.x := rfl
@[simp] theorem jumpTo_hi (s : State) (t : Word) : (jumpTo s t).hi = s.hi := rfl
@[simp] theorem jumpTo_lo (s : State) (t : Word) : (jumpTo s t).lo = s.lo := rfl
@[simp] theorem jumpTo_pc (s : State) (t : Word) : (jumpTo s t).pc = s.npc := rfl
@[simp] theorem jumpTo_npc (s : State) (t : Word) : (jumpTo s t).npc = t := rfl
@[simp] theorem jumpTo_mem (s : State) (t : Word) : (jumpTo s t).mem = s.mem := rfl
@[simp] theorem jumpTo_fault (s : State) (t : Word) : (jumpTo s t).fault = s.fault := rfl
@[simp] theorem jumpTo_halted (s : State) (t : Word) : (jumpTo s t).halted = s.halted := rfl
@[simp] theorem jumpTo_draws (s : State) (t : Word) : (jumpTo s t).draws = s.draws := rfl

/-! ## branch -/

@[simp] theorem branch_params (s : State) (c : Bool) (o : Imm16) : (branch s c o).params = s.params := rfl
@[simp] theorem branch_x (s : State) (c : Bool) (o : Imm16) : (branch s c o).x = s.x := rfl
@[simp] theorem branch_hi (s : State) (c : Bool) (o : Imm16) : (branch s c o).hi = s.hi := rfl
@[simp] theorem branch_lo (s : State) (c : Bool) (o : Imm16) : (branch s c o).lo = s.lo := rfl
@[simp] theorem branch_pc (s : State) (c : Bool) (o : Imm16) : (branch s c o).pc = s.npc := rfl
@[simp] theorem branch_npc (s : State) (c : Bool) (o : Imm16) : (branch s c o).npc = s.npc + (if c then branchDisplacement o else 4) := rfl
@[simp] theorem branch_mem (s : State) (c : Bool) (o : Imm16) : (branch s c o).mem = s.mem := rfl
@[simp] theorem branch_fault (s : State) (c : Bool) (o : Imm16) : (branch s c o).fault = s.fault := rfl
@[simp] theorem branch_halted (s : State) (c : Bool) (o : Imm16) : (branch s c o).halted = s.halted := rfl
@[simp] theorem branch_draws (s : State) (c : Bool) (o : Imm16) : (branch s c o).draws = s.draws := rfl

/-! ## multiply -/

@[simp] theorem multiply_params (k : Config.MultKind) (a b : Word) (s : State) : (multiply k a b s).params = s.params := rfl
@[simp] theorem multiply_x (k : Config.MultKind) (a b : Word) (s : State) : (multiply k a b s).x = s.x := rfl
@[simp] theorem multiply_hi (k : Config.MultKind) (a b : Word) (s : State) : (multiply k a b s).hi = multHi k a b s := rfl
@[simp] theorem multiply_lo (k : Config.MultKind) (a b : Word) (s : State) : (multiply k a b s).lo = productLow k a b := rfl
@[simp] theorem multiply_pc (k : Config.MultKind) (a b : Word) (s : State) : (multiply k a b s).pc = s.npc := rfl
@[simp] theorem multiply_npc (k : Config.MultKind) (a b : Word) (s : State) : (multiply k a b s).npc = s.npc + 4 := rfl
@[simp] theorem multiply_mem (k : Config.MultKind) (a b : Word) (s : State) : (multiply k a b s).mem = s.mem := rfl
@[simp] theorem multiply_fault (k : Config.MultKind) (a b : Word) (s : State) : (multiply k a b s).fault = s.fault := rfl
@[simp] theorem multiply_halted (k : Config.MultKind) (a b : Word) (s : State) : (multiply k a b s).halted = s.halted := rfl
@[simp] theorem multiply_draws (k : Config.MultKind) (a b : Word) (s : State) : (multiply k a b s).draws = multDraws s := rfl

/-! ## writeReg -/

@[simp] theorem writeReg_params (s : State) (i : RegNum) (v : Word) : (writeReg s i v).params = s.params := by
  unfold writeReg; split <;> rfl
@[simp] theorem writeReg_hi (s : State) (i : RegNum) (v : Word) : (writeReg s i v).hi = s.hi := by
  unfold writeReg; split <;> rfl
@[simp] theorem writeReg_lo (s : State) (i : RegNum) (v : Word) : (writeReg s i v).lo = s.lo := by
  unfold writeReg; split <;> rfl
@[simp] theorem writeReg_pc (s : State) (i : RegNum) (v : Word) : (writeReg s i v).pc = s.pc := by
  unfold writeReg; split <;> rfl
@[simp] theorem writeReg_npc (s : State) (i : RegNum) (v : Word) : (writeReg s i v).npc = s.npc := by
  unfold writeReg; split <;> rfl
@[simp] theorem writeReg_mem (s : State) (i : RegNum) (v : Word) : (writeReg s i v).mem = s.mem := by
  unfold writeReg; split <;> rfl
@[simp] theorem writeReg_fault (s : State) (i : RegNum) (v : Word) : (writeReg s i v).fault = s.fault := by
  unfold writeReg; split <;> rfl
@[simp] theorem writeReg_halted (s : State) (i : RegNum) (v : Word) : (writeReg s i v).halted = s.halted := by
  unfold writeReg; split <;> rfl
@[simp] theorem writeReg_draws (s : State) (i : RegNum) (v : Word) : (writeReg s i v).draws = s.draws := by
  unfold writeReg; split <;> rfl

/-! ## branchLink -/

@[simp] theorem branchLink_params (s : State) (c : Bool) : (branchLink s c).params = s.params := by
  unfold branchLink; split <;> simp
@[simp] theorem branchLink_hi (s : State) (c : Bool) : (branchLink s c).hi = s.hi := by
  unfold branchLink; split <;> simp
@[simp] theorem branchLink_lo (s : State) (c : Bool) : (branchLink s c).lo = s.lo := by
  unfold branchLink; split <;> simp
@[simp] theorem branchLink_pc (s : State) (c : Bool) : (branchLink s c).pc = s.pc := by
  unfold branchLink; split <;> simp
@[simp] theorem branchLink_npc (s : State) (c : Bool) : (branchLink s c).npc = s.npc := by
  unfold branchLink; split <;> simp
@[simp] theorem branchLink_mem (s : State) (c : Bool) : (branchLink s c).mem = s.mem := by
  unfold branchLink; split <;> simp
@[simp] theorem branchLink_fault (s : State) (c : Bool) : (branchLink s c).fault = s.fault := by
  unfold branchLink; split <;> simp
@[simp] theorem branchLink_halted (s : State) (c : Bool) : (branchLink s c).halted = s.halted := by
  unfold branchLink; split <;> simp
@[simp] theorem branchLink_draws (s : State) (c : Bool) : (branchLink s c).draws = s.draws := by
  unfold branchLink; split <;> simp

/-! ## The environment call -/

@[simp] theorem environmentCall_params (w : Word) (s : State) : (environmentCall w s).params = s.params := by
  unfold environmentCall applyAnswer; split <;> rfl
@[simp] theorem environmentCall_pc (w : Word) (s : State) : (environmentCall w s).pc = s.pc := by
  unfold environmentCall applyAnswer; split <;> rfl
@[simp] theorem environmentCall_npc (w : Word) (s : State) : (environmentCall w s).npc = s.npc := by
  unfold environmentCall applyAnswer; split <;> rfl
@[simp] theorem environmentCall_fault (w : Word) (s : State) : (environmentCall w s).fault = s.fault := by
  unfold environmentCall applyAnswer; split <;> rfl
@[simp] theorem environmentCall_draws (w : Word) (s : State) : (environmentCall w s).draws = s.draws := by
  unfold environmentCall applyAnswer; split <;> rfl

/-! ## The state after reset -/

@[simp] theorem reset_params : State.reset.params = paramsAtReset := rfl
@[simp] theorem reset_hi : State.reset.hi = 0 := rfl
@[simp] theorem reset_lo : State.reset.lo = 0 := rfl
@[simp] theorem reset_pc : State.reset.pc = entryAtReset := rfl
@[simp] theorem reset_npc : State.reset.npc = entryAtReset + 4 := rfl
@[simp] theorem reset_mem : State.reset.mem = [] := rfl
@[simp] theorem reset_fault : State.reset.fault = none := rfl
@[simp] theorem reset_halted : State.reset.halted = none := rfl
@[simp] theorem reset_draws : State.reset.draws = 0 := rfl

end Sys2Proof.Machine
end

