-- ==== Sys2Proof/Laws/Registers.lean ====
section
/-! SUPPORT. Reading a register after each update (spec/10_state.md R21). -/

namespace Sys2Proof.Machine

/-- Register 0 reads 0 in every state. -/
@[simp] theorem readReg_zero (s : State) : readReg s 0#5 = 0#32 := rfl

theorem readReg_of_ne_zero (s : State) {i : RegNum} (h : i ≠ 0#5) : readReg s i = s.x[i.toNat]'i.isLt := by
  simp [readReg, h]

/-- A read of a register depends on the register file alone. -/
theorem readReg_congr {s t : State} (h : s.x = t.x) (i : RegNum) : readReg s i = readReg t i := by
  unfold readReg; split
  · rfl
  · simp only [h]

/-- A write to register 0 has no effect. -/
@[simp] theorem writeReg_zero (s : State) (v : Word) : writeReg s 0#5 v = s := rfl

theorem writeReg_of_ne_zero (s : State) {i : RegNum} (h : i ≠ 0#5) (v : Word) :
    writeReg s i v = { s with x := s.x.set i.toNat v i.isLt } := by
  simp [writeReg, h]

/-- What a register reads after a write: the value written if it is the register written and not register 0, else what
it read before. -/
theorem readReg_writeReg (s : State) (i j : RegNum) (v : Word) :
    readReg (writeReg s i v) j = if j = i ∧ i ≠ 0#5 then v else readReg s j := by
  by_cases hi : i = 0#5
  · subst hi; simp
  · by_cases hj : j = 0#5
    · subst hj
      have : ¬(0#5 : RegNum) = i := fun e => hi e.symm
      simp [this]
    · simp only [readReg, hj, writeReg, hi, if_false, ne_eq, not_false_eq_true, and_true, Vector.getElem_set]
      by_cases h : j = i
      · simp [h]
      · have : i.toNat ≠ j.toNat := fun e => h (BitVec.eq_of_toNat_eq e.symm)
        simp [this, h]

@[simp] theorem readReg_writeReg_same (s : State) {i : RegNum} (h : i ≠ 0#5) (v : Word) :
    readReg (writeReg s i v) i = v := by
  simp [readReg_writeReg, h]

theorem readReg_writeReg_ne (s : State) {i j : RegNum} (h : j ≠ i) (v : Word) :
    readReg (writeReg s i v) j = readReg s j := by
  simp [readReg_writeReg, h]

@[simp] theorem readReg_advancePc (s : State) (k : Word) (i : RegNum) :
    readReg (advancePc s k) i = readReg s i := rfl

@[simp] theorem readReg_jumpTo (s : State) (t : Word) (i : RegNum) : readReg (jumpTo s t) i = readReg s i := rfl

@[simp] theorem readReg_writeHiLo (s : State) (h l : Word) (i : RegNum) :
    readReg (writeHiLo s h l) i = readReg s i := rfl

@[simp] theorem readReg_branch (s : State) (c : Bool) (o : Imm16) (i : RegNum) :
    readReg (branch s c o) i = readReg s i := rfl

@[simp] theorem readReg_multiply (k : Config.MultKind) (a b : Word) (s : State) (i : RegNum) :
    readReg (multiply k a b s) i = readReg s i := rfl

/-- What a register reads after the link of BGEZAL and BLTZAL: register 31 the link value where it is written. -/
theorem readReg_branchLink (s : State) (taken : Bool) (i : RegNum) :
    readReg (branchLink s taken) i =
      if i = linkReg ∧ (taken = true ∨ s.params.linkConditional = false) then linkValue s else readReg s i := by
  have hl : ¬linkReg = 0#5 := by decide
  unfold branchLink
  by_cases hc : taken = true ∨ s.params.linkConditional = false
  · have : (taken || !s.params.linkConditional) = true := by simpa using hc
    simp [this, readReg_writeReg, hl, hc]
  · have : (taken || !s.params.linkConditional) = false := by simpa using hc
    simp [this, hc]

/-- The stored register 0 is not written by `writeReg`. -/
theorem writeReg_x_zero (s : State) (i : RegNum) (v : Word) : (writeReg s i v).x[0] = s.x[0] := by
  by_cases hi : i = 0#5
  · subst hi; simp
  · rw [writeReg_of_ne_zero s hi]
    have : i.toNat ≠ 0 := fun e => hi (BitVec.eq_of_toNat_eq e)
    simp [this]

end Sys2Proof.Machine
end

