-- ==== Sys2Proof/Laws/Ops.lean ====
section
/-! SUPPORT. One lemma for each shared operation that says once everything it can do; proofs about an instruction cite
these instead of unfolding the operation. -/

namespace Sys2Proof.Machine

theorem finishWrite_next {s t : State} {i : RegNum} {v : Word} :
    finishWrite s i v = .next t ↔ t = advancePc (writeReg s i v) 4 := by
  simp [finishWrite, eq_comm]

theorem raise_next {s t : State} {r : FaultRecord} : raise r s = .next t ↔ t = { s with fault := some r } := by
  simp [raise, eq_comm]

/-! ## Reads -/

/-- A byte read gives a value exactly where the map admits it and the byte has that value (R43). -/
theorem readByte_value {s : State} {addr : Word} {b : Byte} :
    readByte s addr = .value b ↔
      admits s.params .read .byte addr = true ∧ memByte s.mem addr.toNat = some b := by
  unfold readByte; split
  · next h => cases hb : memByte s.mem addr.toNat <;> simp [h]
  · next h => simp [h]

/-- A byte read raises exactly where the map does not admit it (R43). -/
theorem readByte_raises {s : State} {addr : Word} {r : FaultRecord} :
    readByte s addr = .raises r ↔ admits s.params .read .byte addr = false ∧ r = .busErrorLoad addr := by
  unfold readByte; split
  · next h => cases hb : memByte s.mem addr.toNat <;> simp [h]
  · next h => simp [h, eq_comm]

/-- A word has a value exactly where its four bytes have. -/
theorem memWord_some {o : Config.ByteOrder} {m : Memory} {addr v : Word} :
    memWord o m addr = some v ↔
      ∃ b0 b1 b2 b3, memByte m addr.toNat = some b0 ∧ memByte m (addr.toNat + 1) = some b1 ∧
        memByte m (addr.toNat + 2) = some b2 ∧ memByte m (addr.toNat + 3) = some b3 ∧
        v = joinBytes o b0 b1 b2 b3 := by
  unfold memWord
  constructor
  · intro h
    split at h
    · next b0 b1 b2 b3 h0 h1 h2 h3 => exact ⟨b0, b1, b2, b3, h0, h1, h2, h3, by simpa using h.symm⟩
    · simp at h
  · rintro ⟨b0, b1, b2, b3, h0, h1, h2, h3, rfl⟩
    simp [h0, h1, h2, h3]

/-- A word has no value exactly where one of its bytes has none. -/
theorem memWord_none {o : Config.ByteOrder} {m : Memory} {addr : Word} :
    memWord o m addr = none ↔ ∃ k < 4, memByte m (addr.toNat + k) = none := by
  unfold memWord
  constructor
  · intro h
    by_contra hn
    have some_at : ∀ k < 4, ∃ b, memByte m (addr.toNat + k) = some b := fun k hk =>
      Option.ne_none_iff_exists'.mp fun h' => hn ⟨k, hk, h'⟩
    obtain ⟨b0, h0⟩ := some_at 0 (by decide)
    obtain ⟨b1, h1⟩ := some_at 1 (by decide)
    obtain ⟨b2, h2⟩ := some_at 2 (by decide)
    obtain ⟨b3, h3⟩ := some_at 3 (by decide)
    rw [Nat.add_zero] at h0
    simp [h0, h1, h2, h3] at h
  · rintro ⟨k, hk, hn⟩
    split
    · next h0 h1 h2 h3 =>
      rcases (by omega : k = 0 ∨ k = 1 ∨ k = 2 ∨ k = 3) with rfl | rfl | rfl | rfl <;> simp_all
    · rfl

/-- A byte read stops at an unspecified byte exactly where it is admitted and the byte has no value (R43, R233). -/
theorem readByte_unspecified {s : State} {addr a : Word} :
    readByte s addr = .unspecified a ↔
      admits s.params .read .byte addr = true ∧ memByte s.mem addr.toNat = none ∧ a = addr := by
  unfold readByte; split
  · next h => cases hb : memByte s.mem addr.toNat <;> simp [h, eq_comm]
  · next h => simp [h]

/-- A word read stops at an unspecified byte exactly where it is aligned, admitted and has no value (R43, R233). -/
theorem readWord_unspecified {s : State} {addr a : Word} :
    readWord s addr = .unspecified a ↔
      aligned addr = true ∧ admits s.params .read .word addr = true ∧
        memWord s.params.byteOrder s.mem addr = none ∧ a = addr := by
  unfold readWord; split
  · next ha =>
    split
    · next h => cases hb : memWord s.params.byteOrder s.mem addr <;> simp [ha, h, eq_comm]
    · next h => simp [h]
  · next ha => simp [ha]

/-- A word read gives a value exactly where it is aligned, admitted and its bytes have values (R43). -/
theorem readWord_value {s : State} {addr v : Word} :
    readWord s addr = .value v ↔
      aligned addr = true ∧ admits s.params .read .word addr = true ∧
        memWord s.params.byteOrder s.mem addr = some v := by
  unfold readWord; split
  · next ha =>
    split
    · next h => cases hb : memWord s.params.byteOrder s.mem addr <;> simp [ha, h]
    · next h => simp [h]
  · next ha => simp [ha]

/-- A word read raises by its alignment first, then by the map (R43, R211). -/
theorem readWord_raises {s : State} {addr : Word} {r : FaultRecord} :
    readWord s addr = .raises r ↔
      (aligned addr = false ∧ r = .addressErrorLoad addr) ∨
        (aligned addr = true ∧ admits s.params .read .word addr = false ∧ r = .busErrorLoad addr) := by
  unfold readWord; split
  · next ha =>
    split
    · next h => cases hb : memWord s.params.byteOrder s.mem addr <;> simp [ha, h]
    · next h => simp [ha, h, eq_comm]
  · next ha => simp only [ha]; simp; exact eq_comm

/-- A fetch gives a value exactly where `pc` is aligned, admitted and its bytes have values (R26, R43). -/
theorem fetchWord_value {s : State} {w : Word} :
    fetchWord s = .value w ↔
      aligned s.pc = true ∧ admits s.params .fetch .word s.pc = true ∧
        memWord s.params.byteOrder s.mem s.pc = some w := by
  unfold fetchWord; split
  · next ha =>
    split
    · next h => cases hb : memWord s.params.byteOrder s.mem s.pc <;> simp [ha, h]
    · next h => simp [h]
  · next ha => simp [ha]

/-- A fetch raises by its alignment first, then by the map (R26, R211). -/
theorem fetchWord_raises {s : State} {r : FaultRecord} :
    fetchWord s = .raises r ↔
      (aligned s.pc = false ∧ r = .addressErrorFetch s.pc) ∨
        (aligned s.pc = true ∧ admits s.params .fetch .word s.pc = false ∧ r = .busErrorFetch s.pc) := by
  unfold fetchWord; split
  · next ha =>
    split
    · next h => cases hb : memWord s.params.byteOrder s.mem s.pc <;> simp [ha, h]
    · next h => simp [ha, h, eq_comm]
  · next ha => simp only [ha]; simp; exact eq_comm

/-- A fetch stops at an unspecified byte exactly where `pc` is aligned, admitted and has no value (R26, R233). -/
theorem fetchWord_unspecified {s : State} {a : Word} :
    fetchWord s = .unspecified a ↔
      aligned s.pc = true ∧ admits s.params .fetch .word s.pc = true ∧
        memWord s.params.byteOrder s.mem s.pc = none ∧ a = s.pc := by
  unfold fetchWord; split
  · next ha =>
    split
    · next h => cases hb : memWord s.params.byteOrder s.mem s.pc <;> simp [ha, h, eq_comm]
    · next h => simp [h]
  · next ha => simp [ha]

/-! ## Writes -/

/-- A write that passed its alignment check is made exactly where the map admits it and, under `SMC = refuse`, it
touches no program text (R44). -/
theorem writeFault_none {p : Config.Params} {sz : Config.AccessSize} {addr : Word} :
    writeFault p sz addr = none ↔
      admits p .write sz addr = true ∧ ¬(p.smc = .refuse ∧ touchesText p sz addr = true) := by
  unfold writeFault; split
  · next h => split <;> simp_all
  · next h => simp [h]

/-- The fault of such a write: the map first, then the program text (R44, R211). -/
theorem writeFault_some {p : Config.Params} {sz : Config.AccessSize} {addr : Word} {r : FaultRecord} :
    writeFault p sz addr = some r ↔
      (admits p .write sz addr = false ∧ r = .busErrorStore addr) ∨
        (admits p .write sz addr = true ∧ p.smc = .refuse ∧ touchesText p sz addr = true ∧
          r = .storeToText addr) := by
  unfold writeFault; split
  · next h =>
    split
    · next hc => simp only [h, hc.1, hc.2]; simp; exact eq_comm
    · next hc => simp only [h]; simp; intro h1 h2; exact absurd ⟨h1, h2⟩ hc
  · next h => simp only [h]; simp; exact eq_comm

/-- What a byte write that is made does (R44). -/
theorem writeByte_ok {s t : State} {addr v : Word} :
    writeByte s addr v = .ok t ↔
      writeFault s.params .byte addr = none ∧ t = { s with mem := memSet s.mem addr.toNat (v.extractLsb' 0 8) } := by
  unfold writeByte; split
  · next r h => simp [h]
  · next h => simp [h, eq_comm]

/-- What a word write that is made does (R44). -/
theorem writeWord_ok {s t : State} {addr v : Word} :
    writeWord s addr v = .ok t ↔
      aligned addr = true ∧ writeFault s.params .word addr = none ∧
        t = { s with mem := memSetWord s.params.byteOrder s.mem addr v } := by
  unfold writeWord; split
  · next ha =>
    split
    · next r h => simp [h]
    · next h => simp [ha, h, eq_comm]
  · next ha => simp [ha]

theorem writeByte_error {s : State} {addr v : Word} {r : FaultRecord} :
    writeByte s addr v = .error r ↔ writeFault s.params .byte addr = some r := by
  unfold writeByte; split
  · next r' h => simp [h]
  · next h => simp [h]

theorem writeWord_error {s : State} {addr v : Word} {r : FaultRecord} :
    writeWord s addr v = .error r ↔
      (aligned addr = false ∧ r = .addressErrorStore addr) ∨
        (aligned addr = true ∧ writeFault s.params .word addr = some r) := by
  unfold writeWord; split
  · next ha =>
    split
    · next r' h => simp [ha, h]
    · next h => simp [ha, h]
  · next ha => simp only [ha]; simp; exact eq_comm

/-! ## The ends of loads and stores -/

/-- Everything a load can do when it gives a next state (R150). -/
theorem finishLoad_next {α : Type} {s t : State} {rt : RegNum} {widen : α → Word} {r : ReadResult α} :
    finishLoad s rt widen r = .next t ↔
      (∃ v, r = .value v ∧ t = advancePc (writeReg s rt (widen v)) 4) ∨
        (∃ f, r = .raises f ∧ t = { s with fault := some f }) := by
  cases r <;> simp [finishLoad, finishWrite, raise, eq_comm]

/-- A load stops exactly where its read meets an unspecified byte (R233). -/
theorem finishLoad_fault {α : Type} {s : State} {rt : RegNum} {widen : α → Word} {r : ReadResult α} {f : Fault} :
    finishLoad s rt widen r = .fault f ↔ ∃ a, r = .unspecified a ∧ f = .readUnspecified a := by
  cases r <;> simp [finishLoad, finishWrite, raise, eq_comm]

/-- Everything a store can do (R150): it always gives a next state. -/
theorem finishStore_next {s t : State} {r : Except FaultRecord State} :
    finishStore s r = .next t ↔
      (∃ s', r = .ok s' ∧ t = advancePc s' 4) ∨ (∃ f, r = .error f ∧ t = { s with fault := some f }) := by
  cases r <;> simp [finishStore, raise, eq_comm]

/-! ## The environment call -/

/-- Everything an environment call can do (R181). -/
theorem environmentCall_cases (w : Word) (s : State) :
    (envAnswer w s = .halt ∧ environmentCall w s = { s with halted := some w }) ∨
      ∃ x hi lo mem, envAnswer w s = .resume x hi lo mem ∧
        environmentCall w s = { s with x := x.set 0 0, hi := hi, lo := lo, mem := memOfCells mem } := by
  unfold environmentCall
  cases h : envAnswer w s with
  | halt => exact .inl ⟨rfl, rfl⟩
  | resume x hi lo mem => exact .inr ⟨x, hi, lo, mem, rfl, rfl⟩

end Sys2Proof.Machine
end

