-- ==== Sys2Proof/Laws/Frames.lean ====
section
/-! SUPPORT. The effect of each shared ending of an instruction, in the words of Safety.lean. -/

namespace Sys2Proof.Machine

theorem SameRegs.of_x {s t : State} (h : t.x = s.x) : SameRegs s t := fun r => readReg_congr h r

/-- `x[i] <- v; advance_pc(4)` writes the register and nothing else. -/
theorem regEffect_finish (s : State) (i : RegNum) (v : Word) : RegEffect s (advancePc (writeReg s i v) 4) i v := by
  refine ⟨fun r => ?_, ⟨by simp, by simp⟩, fun a => by simp, ⟨by simp, by simp, by simp, by simp⟩, by simp, by simp⟩
  rw [readReg_advancePc, readReg_writeReg]
  by_cases h : r = i
  · subst h; simp
  · simp [h]

theorem finishWrite_effect (s : State) (i : RegNum) (v : Word) :
    ∃ t, finishWrite s i v = .next t ∧ RegEffect s t i v :=
  ⟨_, rfl, regEffect_finish s i v⟩

/-- A conditional branch moves the program counters and nothing else (R120). -/
theorem jumpEffect_branch (s : State) (taken : Bool) (offset : Imm16) :
    JumpEffect s (branch s taken offset) (s.npc + (if taken then branchDisplacement offset else 4)) :=
  ⟨fun _ => rfl, ⟨rfl, rfl⟩, fun _ => rfl, ⟨rfl, rfl, rfl, rfl⟩, rfl, rfl⟩

theorem jumpEffect_jumpTo (s : State) (target : Word) : JumpEffect s (jumpTo s target) target :=
  ⟨fun _ => rfl, ⟨rfl, rfl⟩, fun _ => rfl, ⟨rfl, rfl, rfl, rfl⟩, rfl, rfl⟩

/-- Writing the link register before a change of the program counters links and jumps. -/
theorem linkEffect_of_write (s : State) {t : State} {target : Word} (hx : t.x = (writeReg s linkReg (linkValue s)).x)
    (hh : SameHiLo s t) (hm : SameMem s t) (hc : SameControl s t) (hp : t.pc = s.npc) (hn : t.npc = target) :
    LinkEffect s t target := by
  refine ⟨fun r => ?_, hh, hm, hc, hp, hn⟩
  rw [readReg_congr hx, readReg_writeReg]
  have : linkReg = 31#5 := rfl
  by_cases h : r = linkReg
  · subst h; simp [this, linkValue]
  · have h' : ¬r = 31#5 := h
    simp [h, h']

/-- The end of a division writes `hi` and `lo` and nothing else (R141, R142). -/
theorem hiLoEffect_finishDivision (s : State) (p : Word × Word) :
    ∃ t, finishDivision s p = .next t ∧ HiLoEffect s t p.1 p.2 :=
  ⟨_, rfl, rfl, rfl, fun _ => rfl, fun _ => rfl, ⟨rfl, rfl, rfl, rfl⟩, rfl, rfl⟩

end Sys2Proof.Machine
end

