-- ==== Sys2Proof/Laws/PerInstr.lean ====
section
/-! SUPPORT. Lemmas made per instruction: one lemma for each constructor of `Instr`. -/

namespace Sys2Proof.Laws.IgnoredBitsClear

/-- The encoder writes every ignored position as 0 (spec/30_encoding.md R76). -/
def Statement (i : Instr) : Prop := encode i &&& ignoredBits i = 0#32

theorem or_and_zero {a b m : Word} (ha : a &&& m = 0#32) (hb : b &&& m = 0#32) : (a ||| b) &&& m = 0#32 := by
  have distrib : (a ||| b) &&& m = (a &&& m) ||| (b &&& m) := by
    ext i hi; simp [Bool.and_or_distrib_right]
  rw [distrib, ha, hb]; rfl

/-- An operand put in its place meets no position of a mask that is 0 there. -/
theorem place_and_zero {n : Nat} (r : BitVec n) (put : Nat) (m : Word)
    (h : ∀ k : Fin 32, put ≤ k.val → k.val < put + n → m.getLsbD k.val = false) :
    (r.setWidth 32 <<< put) &&& m = 0#32 := by
  refine BitVec.eq_of_getLsbD_eq fun i hi => ?_
  simp only [BitVec.getLsbD_and, BitVec.getLsbD_shiftLeft, BitVec.getLsbD_setWidth, BitVec.getLsbD_zero]
  by_cases lo : i < put
  · simp [lo]
  · by_cases up : i < put + n
    · simp [h ⟨i, hi⟩ (by simpa using lo) up]
    · have : r.getLsbD (i - put) = false := BitVec.getLsbD_of_ge _ _ (by omega)
      simp [this]

theorem add (rd rs rt : RegNum) : Statement (.add rd rs rt) := BitVec.and_zero
theorem addi (rt rs : RegNum) (imm : Imm16) : Statement (.addi rt rs imm) := BitVec.and_zero
theorem addiu (rt rs : RegNum) (imm : Imm16) : Statement (.addiu rt rs imm) := BitVec.and_zero
theorem addu (rd rs rt : RegNum) : Statement (.addu rd rs rt) := BitVec.and_zero
theorem and (rd rs rt : RegNum) : Statement (.and rd rs rt) := BitVec.and_zero
theorem andi (rt rs : RegNum) (imm : Imm16) : Statement (.andi rt rs imm) := BitVec.and_zero
theorem beq (rs rt : RegNum) (offset : Imm16) : Statement (.beq rs rt offset) := BitVec.and_zero
theorem bgez (rs : RegNum) (offset : Imm16) : Statement (.bgez rs offset) := BitVec.and_zero
theorem bgezal (rs : RegNum) (offset : Imm16) : Statement (.bgezal rs offset) := BitVec.and_zero
theorem bgtz (rs : RegNum) (offset : Imm16) : Statement (.bgtz rs offset) := BitVec.and_zero
theorem blez (rs : RegNum) (offset : Imm16) : Statement (.blez rs offset) := BitVec.and_zero
theorem bltz (rs : RegNum) (offset : Imm16) : Statement (.bltz rs offset) := BitVec.and_zero
theorem bltzal (rs : RegNum) (offset : Imm16) : Statement (.bltzal rs offset) := BitVec.and_zero
theorem bne (rs rt : RegNum) (offset : Imm16) : Statement (.bne rs rt offset) := BitVec.and_zero
theorem div (rs rt : RegNum) : Statement (.div rs rt) := BitVec.and_zero
theorem divu (rs rt : RegNum) : Statement (.divu rs rt) := BitVec.and_zero
theorem j (target : Target26) : Statement (.j target) := BitVec.and_zero
theorem jal (target : Target26) : Statement (.jal target) := BitVec.and_zero
theorem jr (rs : RegNum) : Statement (.jr rs) := BitVec.and_zero
theorem lb (rt : RegNum) (offset : Imm16) (rs : RegNum) : Statement (.lb rt offset rs) := BitVec.and_zero
theorem lui (rt : RegNum) (imm : Imm16) : Statement (.lui rt imm) :=
  show _ &&& (0x03E00000 : Word) = 0#32 from
    or_and_zero (or_and_zero (by decide) (place_and_zero rt 16 _ (by decide))) (by simpa [atImm16] using place_and_zero imm 0 0x03E00000 (by decide))
theorem lw (rt : RegNum) (offset : Imm16) (rs : RegNum) : Statement (.lw rt offset rs) := BitVec.and_zero
theorem mfhi (rd : RegNum) : Statement (.mfhi rd) := BitVec.and_zero
theorem mflo (rd : RegNum) : Statement (.mflo rd) := BitVec.and_zero
theorem mult (rs rt : RegNum) : Statement (.mult rs rt) := BitVec.and_zero
theorem multu (rs rt : RegNum) : Statement (.multu rs rt) := BitVec.and_zero
theorem noop : Statement (.noop) := BitVec.and_zero
theorem or (rd rs rt : RegNum) : Statement (.or rd rs rt) := BitVec.and_zero
theorem ori (rt rs : RegNum) (imm : Imm16) : Statement (.ori rt rs imm) := BitVec.and_zero
theorem sb (rt : RegNum) (offset : Imm16) (rs : RegNum) : Statement (.sb rt offset rs) := BitVec.and_zero
theorem sll (rd rt : RegNum) (shamt : Shamt) : Statement (.sll rd rt shamt) :=
  show _ &&& (0x03E00000 : Word) = 0#32 from
    or_and_zero (or_and_zero (or_and_zero (by decide) (place_and_zero rt 16 _ (by decide))) (place_and_zero rd 11 _ (by decide))) (place_and_zero shamt 6 _ (by decide))
theorem sllv (rd rt rs : RegNum) : Statement (.sllv rd rt rs) :=
  show _ &&& (0x000007C0 : Word) = 0#32 from
    or_and_zero (or_and_zero (or_and_zero (by decide) (place_and_zero rs 21 _ (by decide))) (place_and_zero rt 16 _ (by decide))) (place_and_zero rd 11 _ (by decide))
theorem slt (rd rs rt : RegNum) : Statement (.slt rd rs rt) := BitVec.and_zero
theorem slti (rt rs : RegNum) (imm : Imm16) : Statement (.slti rt rs imm) := BitVec.and_zero
theorem sltiu (rt rs : RegNum) (imm : Imm16) : Statement (.sltiu rt rs imm) := BitVec.and_zero
theorem sltu (rd rs rt : RegNum) : Statement (.sltu rd rs rt) := BitVec.and_zero
theorem sra (rd rt : RegNum) (shamt : Shamt) : Statement (.sra rd rt shamt) :=
  show _ &&& (0x03E00000 : Word) = 0#32 from
    or_and_zero (or_and_zero (or_and_zero (by decide) (place_and_zero rt 16 _ (by decide))) (place_and_zero rd 11 _ (by decide))) (place_and_zero shamt 6 _ (by decide))
theorem srl (rd rt : RegNum) (shamt : Shamt) : Statement (.srl rd rt shamt) :=
  show _ &&& (0x03E00000 : Word) = 0#32 from
    or_and_zero (or_and_zero (or_and_zero (by decide) (place_and_zero rt 16 _ (by decide))) (place_and_zero rd 11 _ (by decide))) (place_and_zero shamt 6 _ (by decide))
theorem srlv (rd rt rs : RegNum) : Statement (.srlv rd rt rs) := BitVec.and_zero
theorem sub (rd rs rt : RegNum) : Statement (.sub rd rs rt) := BitVec.and_zero
theorem subu (rd rs rt : RegNum) : Statement (.subu rd rs rt) := BitVec.and_zero
theorem sw (rt : RegNum) (offset : Imm16) (rs : RegNum) : Statement (.sw rt offset rs) := BitVec.and_zero
theorem syscall (code : SyscallCode) : Statement (.syscall code) :=
  show (0x0000000C &&& 0x03FFFFC0 : Word) = 0#32 by decide
theorem xor (rd rs rt : RegNum) : Statement (.xor rd rs rt) :=
  show _ &&& (0x000007C0 : Word) = 0#32 from
    or_and_zero (or_and_zero (or_and_zero (by decide) (place_and_zero rs 21 _ (by decide))) (place_and_zero rt 16 _ (by decide))) (place_and_zero rd 11 _ (by decide))
theorem xori (rt rs : RegNum) (imm : Imm16) : Statement (.xori rt rs imm) := BitVec.and_zero

end Sys2Proof.Laws.IgnoredBitsClear
end

