-- ==== Sys2Proof/Laws/Step.lean ====
section
/-! SUPPORT. What a step can do (spec/10_state.md R26), said once. -/

namespace Sys2Proof.Machine

/-- The machine goes on exactly while there is no fault record and no ended run. -/
theorem runStopped_none {s : State} : runStopped s = none ↔ s.fault = none ∧ s.halted = none := by
  unfold runStopped
  cases s.fault <;> cases s.halted <;> simp

/-- What a step finds to execute: the decoded word, where nothing stops or raises before (R26). -/
theorem pending_executes {s : State} {i : Instr} :
    pending s = .executes i ↔
      runStopped s = none ∧ ∃ w, fetchWord s = .value w ∧ decode w = .ok i ∧ delaySlotRefuses s i = false := by
  unfold pending pendingOfWord
  cases hr : runStopped s with
  | some f => simp
  | none =>
    cases hf : fetchWord s with
    | raises r => simp
    | unspecified a => simp
    | value w =>
      cases hd : decode w with
      | error e => simp [hd]
      | ok k =>
        cases hb : delaySlotRefuses s k
        · simp only [hd, hb, ReadResult.value.injEq, true_and, exists_eq_left']
          constructor
          · intro h; cases h; exact ⟨rfl, hb⟩
          · rintro ⟨h, -⟩; cases h; rfl
        · simp only [hd, hb, if_true, ReadResult.value.injEq, true_and, exists_eq_left']
          constructor
          · intro h; cases h
          · rintro ⟨h, h'⟩; cases h; rw [hb] at h'; cases h'

/-- A step that gives a next state executed the decoded instruction, or raised a fault before executing. -/
theorem step_next {s t : State} :
    step s = .next t ↔
      (∃ i, pending s = .executes i ∧ exec i s = .next t) ∨
        (∃ r, pending s = .raises r ∧ t = { s with fault := some r }) := by
  unfold step
  cases pending s <;> simp [raise, eq_comm]

/-- A step stops before executing at an ended run or at a fetch that meets an unspecified byte, and nowhere else. -/
theorem pending_stops {s : State} {f : Fault} :
    pending s = .stops f ↔
      runStopped s = some f ∨
        (runStopped s = none ∧ ∃ a, fetchWord s = .unspecified a ∧ f = .readUnspecified a) := by
  unfold pending pendingOfWord
  cases hr : runStopped s with
  | some g => simp
  | none =>
    cases hf : fetchWord s with
    | raises r => simp
    | unspecified a => simp [eq_comm]
    | value w =>
      cases hd : decode w with
      | error e => simp [hd]
      | ok k => cases hb : delaySlotRefuses s k <;> simp [hd, hb]

/-- A step that stops was stopped before executing, or executed an instruction that stops. -/
theorem step_fault {s : State} {f : Fault} :
    step s = .fault f ↔ pending s = .stops f ∨ ∃ i, pending s = .executes i ∧ exec i s = .fault f := by
  unfold step
  cases pending s <;> simp [raise, eq_comm]

/-- A step that executes stands at a state that has not ended. -/
theorem running_of_executes {s : State} {i : Instr} (h : pending s = .executes i) :
    s.fault = none ∧ s.halted = none :=
  runStopped_none.mp (pending_executes.mp h).1

/-- A step that raises before executing stands at a state that has not ended. -/
theorem running_of_raises {s : State} {r : FaultRecord} (h : pending s = .raises r) :
    s.fault = none ∧ s.halted = none := by
  refine runStopped_none.mp ?_
  unfold pending at h
  split at h
  · cases h
  · assumption

/-- A step gives a next state only from a state that has not ended (R182, R204). -/
theorem running_of_step_next {s t : State} (h : step s = .next t) : s.fault = none ∧ s.halted = none := by
  rcases step_next.mp h with ⟨i, hp, -⟩ | ⟨r, hp, -⟩
  · exact running_of_executes hp
  · exact running_of_raises hp

end Sys2Proof.Machine
end

