-- ==== Sys2Proof/Tests/Slice0.lean ====
section
/-! SUPPORT. The model's own tests: the WellFormed smoke test, a word of every instruction written out bit by bit from
spec/30_encoding.md R65, single steps with the results that spec/95_test_vectors.md lists (the letter and number of the
vector stand at each test), and a state or operands that meet the hypotheses of each statement. -/

namespace Sys2Proof.Tests

open Sys2Proof.Machine

/-! ## WellFormed -/

/-- The one ill-formed term: its word is NOOP's (R69, log 17). -/
theorem test_illformed_noop_word : (Instr.sll 0#5 0#5 0#5).wellFormed = false := by decide

/-- A SYSCALL that keeps ignored bits: its word is not the encoder's, which has 0 there (R76). -/
theorem test_illformed_syscall_bits :
    (Instr.syscall 0x80001#20).wellFormed = false ∧ (Instr.syscall 0#20).wellFormed = true ∧
      encode (.syscall 0x80001#20) = 0x0000000C#32 := by decide

theorem test_wellformed_neighbours :
    (Instr.sll 0#5 0#5 1#5).wellFormed = true ∧ (Instr.sll 0#5 1#5 0#5).wellFormed = true ∧
      (Instr.sll 1#5 0#5 0#5).wellFormed = true ∧ Instr.noop.wellFormed = true := by decide

/-! ## Decoding: every instruction's word from its pattern, ignored positions set where it has some -/

/-- R65: arithmetic. -/
theorem test_decode_arithmetic :
    decode 0b000000_01001_01010_01000_00000_100000#32 = .ok (.add 8#5 9#5 10#5) ∧
    decode 0b001000_01001_01000_1000000000000001#32 = .ok (.addi 8#5 9#5 0x8001#16) ∧
    decode 0b001001_01001_01000_0111111111111110#32 = .ok (.addiu 8#5 9#5 0x7FFE#16) ∧
    decode 0b000000_01001_01010_01000_00000_100001#32 = .ok (.addu 8#5 9#5 10#5) ∧
    decode 0b000000_01001_01010_01000_00000_100010#32 = .ok (.sub 8#5 9#5 10#5) ∧
    decode 0b000000_01001_01010_01000_00000_100011#32 = .ok (.subu 8#5 9#5 10#5) := by decide

/-- R65: logical. -/
theorem test_decode_logical :
    decode 0b000000_01001_01010_01000_00000_100100#32 = .ok (.and 8#5 9#5 10#5) ∧
    decode 0b001100_01001_01000_1000000000000001#32 = .ok (.andi 8#5 9#5 0x8001#16) ∧
    decode 0b000000_01001_01010_01000_00000_100101#32 = .ok (.or 8#5 9#5 10#5) ∧
    decode 0b001101_01001_01000_1000000000000001#32 = .ok (.ori 8#5 9#5 0x8001#16) ∧
    decode 0b000000_01001_01010_01000_10101_100110#32 = .ok (.xor 8#5 9#5 10#5) ∧
    decode 0b001110_01001_01000_1000000000000001#32 = .ok (.xori 8#5 9#5 0x8001#16) ∧
    decode 0b001111_10101_01000_0001001000110100#32 = .ok (.lui 8#5 0x1234#16) := by decide

/-- R65: branch. -/
theorem test_decode_branch :
    decode 0b000100_01001_01010_1111111111111100#32 = .ok (.beq 9#5 10#5 0xFFFC#16) ∧
    decode 0b000001_01001_00001_0000000000000100#32 = .ok (.bgez 9#5 4#16) ∧
    decode 0b000001_01001_10001_0000000000000100#32 = .ok (.bgezal 9#5 4#16) ∧
    decode 0b000111_01001_00000_0000000000000100#32 = .ok (.bgtz 9#5 4#16) ∧
    decode 0b000110_01001_00000_0000000000000100#32 = .ok (.blez 9#5 4#16) ∧
    decode 0b000001_01001_00000_0000000000000100#32 = .ok (.bltz 9#5 4#16) ∧
    decode 0b000001_01001_10000_0000000000000100#32 = .ok (.bltzal 9#5 4#16) ∧
    decode 0b000101_01001_01010_0000000000000011#32 = .ok (.bne 9#5 10#5 3#16) := by decide

/-- R65: jump. -/
theorem test_decode_jump :
    decode 0b000010_10000000000000000001000001#32 = .ok (.j 0x2000041#26) ∧
    decode 0b000011_00000100000000000001000000#32 = .ok (.jal 0x0100040#26) ∧
    decode 0b000000_01001_000000000000000_001000#32 = .ok (.jr 9#5) := by decide

/-- R65: muldiv. -/
theorem test_decode_muldiv :
    decode 0b000000_01001_01010_00000_00000_011010#32 = .ok (.div 9#5 10#5) ∧
    decode 0b000000_01001_01010_00000_00000_011011#32 = .ok (.divu 9#5 10#5) ∧
    decode 0b000000_01001_01010_00000_00000_011000#32 = .ok (.mult 9#5 10#5) ∧
    decode 0b000000_01001_01010_00000_00000_011001#32 = .ok (.multu 9#5 10#5) ∧
    decode 0b000000_00000_00000_01000_00000_010000#32 = .ok (.mfhi 8#5) ∧
    decode 0b000000_00000_00000_01000_00000_010010#32 = .ok (.mflo 8#5) := by decide

/-- R65: loads and stores. -/
theorem test_decode_loads_stores :
    decode 0b100000_01001_01000_1111111111111111#32 = .ok (.lb 8#5 0xFFFF#16 9#5) ∧
    decode 0b100011_01001_01000_0000000000000100#32 = .ok (.lw 8#5 4#16 9#5) ∧
    decode 0b101000_01001_01000_0000000000000001#32 = .ok (.sb 8#5 1#16 9#5) ∧
    decode 0b101011_01001_01000_0000000000000100#32 = .ok (.sw 8#5 4#16 9#5) := by decide

/-- R65: shifts. -/
theorem test_decode_shifts :
    decode 0b000000_00000_00000_00000_00000_000000#32 = .ok .noop ∧
    decode 0b000000_10101_01001_01000_00100_000000#32 = .ok (.sll 8#5 9#5 4#5) ∧
    decode 0b000000_01010_01001_01000_10101_000100#32 = .ok (.sllv 8#5 9#5 10#5) ∧
    decode 0b000000_10101_01001_01000_00100_000011#32 = .ok (.sra 8#5 9#5 4#5) ∧
    decode 0b000000_10101_01001_01000_00100_000010#32 = .ok (.srl 8#5 9#5 4#5) ∧
    decode 0b000000_01010_01001_01000_00000_000110#32 = .ok (.srlv 8#5 9#5 10#5) := by decide

/-- R65: compare and system. -/
theorem test_decode_compare_system :
    decode 0b000000_01001_01010_01000_00000_101010#32 = .ok (.slt 8#5 9#5 10#5) ∧
    decode 0b001010_01001_01000_1000000000000001#32 = .ok (.slti 8#5 9#5 0x8001#16) ∧
    decode 0b001011_01001_01000_1000000000000001#32 = .ok (.sltiu 8#5 9#5 0x8001#16) ∧
    decode 0b000000_01001_01010_01000_00000_101011#32 = .ok (.sltu 8#5 9#5 10#5) ∧
    decode 0b000000_10000000000000000001_001100#32 = .ok (.syscall 0x80001#20) := by decide

/-- R68, R70: words that match no row. -/
theorem test_decode_reserved :
    decode 0b000000_01001_01010_01000_00001_100000#32 = .error (.reserved 0x012A4060#32) ∧
    decode 0b000000_00001_00000_01000_00000_010000#32 = .error (.reserved 0x00204010#32) ∧
    decode 0b000001_01001_00010_0000000000000100#32 = .error (.reserved 0x05220004#32) ∧
    decode 0b000111_01001_00001_0000000000000100#32 = .error (.reserved 0x1D210004#32) := by decide

/-- Four bytes are an instruction, fewer are none (R60). -/
theorem test_decode_bytes :
    decodeBytes .big [0x01#8, 0x2A#8, 0x40#8, 0x20#8, 0xFF#8] = .ok (.add 8#5 9#5 10#5, [0xFF#8]) ∧
    decodeBytes .little [0x20#8, 0x40#8, 0x2A#8, 0x01#8] = .ok (.add 8#5 9#5 10#5, []) ∧
    decodeBytes .big [0x01#8, 0x2A#8, 0x40#8] = .error .truncated ∧
    decodeTableWord 32 0x012A4020 = some (.add 8#5 9#5 10#5) ∧ decodeTableWord 32 0xFFFFFFFF = none := by decide

/-! ## Single steps -/

/-- The next state, if there is one. -/
def nextOf : Result → Option State
  | .next t => some t
  | .fault _ | .refused _ => none

/-- The address map of the vectors. -/
def smallMap : List Config.MapEntry :=
  [ ⟨.fetch, .word, 0x00400000, 0x004000FC⟩, ⟨.write, .byte, 0x00400000, 0x004000FF⟩,
    ⟨.write, .word, 0x00400000, 0x004000FC⟩, ⟨.read, .byte, 0x10000000, 0x10000007⟩,
    ⟨.read, .word, 0x10000000, 0x10000004⟩, ⟨.write, .byte, 0x10000000, 0x10000007⟩,
    ⟨.write, .word, 0x10000000, 0x10000004⟩ ]

def smallParams : Config.Params := { paramsAtReset with memMap := smallMap }

/-- The state of the vectors: the bytes 11 22 83 44 and four zeroes from 0x10000000, `hi` = 5, `lo` = 6, and the registers
listed. -/
def small (regs : List (RegNum × Word)) : State :=
  regs.foldl (fun s p => writeReg s p.1 p.2)
    { State.reset with
      params := smallParams
      hi := 5
      lo := 6
      mem := [(0x10000000, 0x11), (0x10000001, 0x22), (0x10000002, 0x83), (0x10000003, 0x44),
        (0x10000004, 0), (0x10000005, 0), (0x10000006, 0), (0x10000007, 0)] }

/-- One step that fetches the word `w`. -/
def run (regs : List (RegNum × Word)) (w : Nat) : Option State :=
  nextOf (step ((small regs).withFetchWord 32 w))

/-- What a test looks at: one register, and the program counters. -/
def seen (r : RegNum) (o : Option State) : Option (Word × Word × Word) :=
  o.map fun t => (readReg t r, t.pc, t.npc)

/-- The step raises and changes nothing else. -/
def raisedOnly (regs : List (RegNum × Word)) (w : Nat) (r : FaultRecord) : Bool :=
  run regs w == some { (small regs).withFetchWord 32 w with fault := some r }

/-! ### Arithmetic -/

/-- Vector A5. -/
theorem test_add_extremes :
    seen 8 (run [(9, 0x80000000), (10, 0x7FFFFFFF)] 0x012A4020) = some (0xFFFFFFFF, 0x00400004, 0x00400008) := by decide

/-- Vector A3. -/
theorem test_add_overflow :
    raisedOnly [(9, 0x7FFFFFFF), (10, 1), (8, 0xAAAAAAAA)] 0x012A4020 (.integerOverflow) = true := by decide

/-- Vector A14. -/
theorem test_addi_negative :
    seen 8 (run [] 0x20088000) = some (0xFFFF8000, 0x00400004, 0x00400008) := by decide

/-- Vector A11. -/
theorem test_addi_overflow :
    raisedOnly [(9, 0x80000000)] 0x2128FFFF (.integerOverflow) = true := by decide

/-- Vector A16. -/
theorem test_addiu_wraps :
    seen 8 (run [(9, 0x7FFFFFFF)] 0x25280001) = some (0x80000000, 0x00400004, 0x00400008) := by decide

/-- Vector A18. -/
theorem test_addiu_same_register :
    seen 9 (run [(9, 0xFFFFFFFC)] 0x25290004) = some (0, 0x00400004, 0x00400008) := by decide

/-- Vector A20. -/
theorem test_addu_wraps :
    seen 8 (run [(9, 0xFFFFFFFF), (10, 0xFFFFFFFF)] 0x012A4021) = some (0xFFFFFFFE, 0x00400004, 0x00400008) := by decide

/-- Vector A22. -/
theorem test_sub_negative :
    seen 8 (run [(9, 5), (10, 7)] 0x012A4022) = some (0xFFFFFFFE, 0x00400004, 0x00400008) := by decide

/-- Vector A24. -/
theorem test_sub_overflow :
    raisedOnly [(10, 0x80000000)] 0x012A4022 (.integerOverflow) = true := by decide

/-- Vector A29. -/
theorem test_subu_wraps :
    seen 8 (run [(9, 0x80000000), (10, 1)] 0x012A4023) = some (0x7FFFFFFF, 0x00400004, 0x00400008) := by decide

/-! ### Logic -/

/-- Vector B1. -/
theorem test_and :
    seen 8 (run [(9, 0xFF00FF00), (10, 0x0FF00FF0)] 0x012A4024) = some (0x0F000F00, 0x00400004, 0x00400008) := by decide

/-- Vector B3. -/
theorem test_andi_zero_extends :
    seen 8 (run [(9, 0xFFFFFFFF)] 0x31288000) = some (0x00008000, 0x00400004, 0x00400008) := by decide

/-- Vector B5. -/
theorem test_or :
    seen 8 (run [(9, 0xFF00FF00), (10, 0x0FF00FF0)] 0x012A4025) = some (0xFFF0FFF0, 0x00400004, 0x00400008) := by decide

/-- Vector B8. -/
theorem test_ori :
    seen 8 (run [(9, 0x12340000)] 0x3528FFFF) = some (0x1234FFFF, 0x00400004, 0x00400008) := by decide

/-- Vector B9. -/
theorem test_xor :
    seen 8 (run [(9, 0xFF00FF00), (10, 0x0FF00FF0)] 0x012A4026) = some (0xF0F0F0F0, 0x00400004, 0x00400008) := by decide

/-- Vector B12. -/
theorem test_xori :
    seen 8 (run [(9, 0xFFFFFFFF)] 0x3928FFFF) = some (0xFFFF0000, 0x00400004, 0x00400008) := by decide

/-- Vector B14. -/
theorem test_lui :
    seen 8 (run [(8, 0x0000FFFF)] 0x3C088000) = some (0x80000000, 0x00400004, 0x00400008) := by decide

/-- Vector B18. -/
theorem test_lui_register_zero :
    seen 0 (run [] 0x3C001234) = some (0, 0x00400004, 0x00400008) := by decide

/-! ### Shifts and NOOP -/

/-- Vector S1. -/
theorem test_noop :
    seen 0 (run [] 0) = some (0, 0x00400004, 0x00400008) := by decide

/-- Vector S5. -/
theorem test_sll :
    seen 8 (run [(9, 1), (31, 0xFFFFFFFF)] 0x03E94100) = some (0x00000010, 0x00400004, 0x00400008) := by decide

/-- Vector S8. -/
theorem test_sllv_low_five_bits :
    seen 8 (run [(9, 1), (10, 0x24)] 0x01494004) = some (0x10, 0x00400004, 0x00400008) := by decide

/-- Vector S10. -/
theorem test_sllv_amount_31 :
    seen 8 (run [(9, 1), (10, 0xFFFFFFFF)] 0x01494004) = some (0x80000000, 0x00400004, 0x00400008) := by decide

/-- Vector S11. -/
theorem test_sra_negative :
    seen 8 (run [(9, 0x80000010)] 0x00094103) = some (0xF8000001, 0x00400004, 0x00400008) := by decide

/-- Vector S13. -/
theorem test_sra_positive :
    seen 8 (run [(9, 0x7FFFFFFF), (8, 5)] 0x000947C3) = some (0, 0x00400004, 0x00400008) := by decide

/-- Vector S16. -/
theorem test_srl :
    seen 8 (run [(9, 0x80000010)] 0x00094102) = some (0x08000001, 0x00400004, 0x00400008) := by decide

/-- Vector S20. -/
theorem test_srlv :
    seen 8 (run [(9, 0x80000000), (10, 0x21)] 0x01494006) = some (0x40000000, 0x00400004, 0x00400008) := by decide

/-! ### Set on less than -/

/-- Vector C1. -/
theorem test_slt_signed :
    seen 8 (run [(9, 0xFFFFFFFF), (10, 1)] 0x012A402A) = some (1, 0x00400004, 0x00400008) := by decide

/-- Vector C3. -/
theorem test_slt_equal :
    seen 8 (run [(9, 5), (10, 5), (8, 7)] 0x012A402A) = some (0, 0x00400004, 0x00400008) := by decide

/-- Vector C7. -/
theorem test_slti_signed :
    seen 8 (run [(9, 0x80000000)] 0x29288000) = some (1, 0x00400004, 0x00400008) := by decide

/-- Vector C9. -/
theorem test_sltiu_sign_extends :
    seen 8 (run [(9, 5)] 0x2D28FFFF) = some (1, 0x00400004, 0x00400008) := by decide

/-- Vector C10. -/
theorem test_sltiu_not_less :
    seen 8 (run [(9, 0xFFFFFFFF), (8, 7)] 0x2D28FFFF) = some (0, 0x00400004, 0x00400008) := by decide

/-- Vector C14. -/
theorem test_sltu_unsigned :
    seen 8 (run [(9, 0xFFFFFFFF), (10, 1), (8, 7)] 0x012A402B) = some (0, 0x00400004, 0x00400008) := by decide

/-! ### Branches and jumps -/

/-- Vector J1. -/
theorem test_beq_taken :
    seen 31 (run [(9, 5), (10, 5)] 0x112A0003) = some (0, 0x00400004, 0x00400010) := by decide

/-- Vector J4. -/
theorem test_beq_backwards :
    seen 31 (run [] 0x1000FFFE) = some (0, 0x00400004, 0x003FFFFC) := by decide

/-- Vector J8. -/
theorem test_bne_taken :
    seen 31 (run [(9, 5), (10, 6)] 0x152A0003) = some (0, 0x00400004, 0x00400010) := by decide

/-- Vector J9. -/
theorem test_bne_not_taken :
    seen 31 (run [(9, 5), (10, 5)] 0x152A0003) = some (0, 0x00400004, 0x00400008) := by decide

/-- Vector J10. -/
theorem test_bgez_zero :
    seen 31 (run [] 0x05210004) = some (0, 0x00400004, 0x00400014) := by decide

/-- Vector J12. -/
theorem test_bgez_negative :
    seen 31 (run [(9, 0x80000000)] 0x05210004) = some (0, 0x00400004, 0x00400008) := by decide

/-- Vector J13. -/
theorem test_bgtz_zero :
    seen 31 (run [] 0x1D200004) = some (0, 0x00400004, 0x00400008) := by decide

/-- Vector J14. -/
theorem test_bgtz_positive :
    seen 31 (run [(9, 1)] 0x1D200004) = some (0, 0x00400004, 0x00400014) := by decide

/-- Vector J16. -/
theorem test_blez_zero :
    seen 31 (run [] 0x19200004) = some (0, 0x00400004, 0x00400014) := by decide

/-- Vector J17. -/
theorem test_blez_positive :
    seen 31 (run [(9, 1)] 0x19200004) = some (0, 0x00400004, 0x00400008) := by decide

/-- Vector J19. -/
theorem test_bltz_zero :
    seen 31 (run [] 0x05200004) = some (0, 0x00400004, 0x00400008) := by decide

/-- Vector J20. -/
theorem test_bltz_negative :
    seen 31 (run [(9, 0xFFFFFFFF)] 0x05200004) = some (0, 0x00400004, 0x00400014) := by decide

/-- Vector J22. -/
theorem test_bgezal_taken :
    seen 31 (run [(31, 0x11111111)] 0x05310004) = some (0x00400008, 0x00400004, 0x00400014) := by decide

/-- Vector J24. -/
theorem test_bgezal_tests_the_old_link :
    seen 31 (run [(31, 0x80000000)] 0x07F10004) = some (0x80000000, 0x00400004, 0x00400008) := by decide

/-- Vector J26. -/
theorem test_bltzal_taken :
    seen 31 (run [(9, 0xFFFFFFFF), (31, 0x11111111)] 0x0530FFFC) = some (0x00400008, 0x00400004, 0x003FFFF4) := by decide

/-- Vector J27. -/
theorem test_bltzal_not_taken :
    seen 31 (run [(31, 0x11111111)] 0x0530FFFC) = some (0x11111111, 0x00400004, 0x00400008) := by decide

/-- Vector J29. -/
theorem test_j :
    seen 31 (run [] 0x0BFFFFFF) = some (0, 0x00400004, 0x0FFFFFFC) := by decide

/-- Vector J31. -/
theorem test_jal :
    seen 31 (run [(31, 0x11111111)] 0x0C100040) = some (0x00400008, 0x00400004, 0x00400100) := by decide

/-- Vector J34. -/
theorem test_jr_misaligned :
    seen 31 (run [(9, 0x00400102)] 0x01200008) = some (0, 0x00400004, 0x00400102) := by decide

/-- Vector K2: the region is that of the delay slot, one past the end of the jump's own. -/
theorem test_jal_region :
    let s := { small [] with pc := 0x0FFFFFFC, npc := 0x10000000 }
    seen 31 (nextOf (exec (.jal 0x10#26) s)) = some (0x10000004, 0x10000000, 0x10000040) := by decide

/-- Vector K8: a jump in the delay slot of a taken transfer. -/
theorem test_jump_in_delay_slot :
    let s := { small [(9, 0x00400200)] with npc := 0x00400100 }
    nextOf (step (s.withFetchWord 32 0x01200008)) =
      some { s.withFetchWord 32 0x01200008 with fault := some (.unpredictableDelaySlot 0x01200008) } := by decide

/-! ### Multiply and divide -/

/-- Vector M2. -/
theorem test_div_truncates :
    let s := small [(9, 0xFFFFFFF9), (10, 2)]
    (nextOf (step (s.withFetchWord 32 0x012A001A))).map (fun t => (t.hi, t.lo)) = some (0xFFFFFFFF, 0xFFFFFFFD) := by decide

/-- Vector M3. -/
theorem test_div_negative_divisor :
    let s := small [(9, 7), (10, 0xFFFFFFFE)]
    (nextOf (step (s.withFetchWord 32 0x012A001A))).map (fun t => (t.hi, t.lo)) = some (1, 0xFFFFFFFD) := by decide

/-- Vector M12. -/
theorem test_divu :
    let s := small [(9, 0xFFFFFFFF), (10, 2)]
    (nextOf (step (s.withFetchWord 32 0x012A001B))).map (fun t => (t.hi, t.lo)) = some (1, 0x7FFFFFFF) := by decide

/-- Vector M16, the default policy. -/
theorem test_mult_low_word :
    let s := small [(9, 7), (10, 0xFFFFFFFD)]
    (nextOf (step (s.withFetchWord 32 0x012A0018))).map (fun t => (t.lo, t.pc)) = some (0xFFFFFFEB, 0x00400004) := by decide

/-- Vector M16 under `high_word`. -/
theorem test_mult_high_word :
    let s := { small [(9, 7), (10, 0xFFFFFFFD)] with params := { smallParams with multHi := .highWord } }
    (nextOf (step (s.withFetchWord 32 0x012A0018))).map (fun t => (t.hi, t.lo)) = some (0xFFFFFFFF, 0xFFFFFFEB) := by decide

/-- Vector M25 under `high_word`. -/
theorem test_multu_high_word :
    let s := { small [(9, 0xFFFFFFFF), (10, 0xFFFFFFFF)] with params := { smallParams with multHi := .highWord } }
    (nextOf (step (s.withFetchWord 32 0x012A0019))).map (fun t => (t.hi, t.lo)) = some (0xFFFFFFFE, 1) := by decide

/-- Vector M22 under `unchanged`; `hi` was 5. -/
theorem test_multu_unchanged :
    let s := { small [(9, 7), (10, 0xFFFFFFFD)] with params := { smallParams with multHi := .unchanged } }
    (nextOf (step (s.withFetchWord 32 0x012A0019))).map (fun t => (t.hi, t.lo)) = some (5, 0xFFFFFFEB) := by decide

/-- Vectors M26, M27 with `hi` = 5 and `lo` = 6. -/
theorem test_mfhi : seen 8 (run [] 0x00004010) = some (5, 0x00400004, 0x00400008) := by decide

theorem test_mflo : seen 8 (run [] 0x00004012) = some (6, 0x00400004, 0x00400008) := by decide

/-! ### Loads and stores -/

/-- Vector L3. -/
theorem test_lb_sign_extends :
    seen 8 (run [(9, 0x10000003)] 0x8128FFFF) = some (0xFFFFFF83, 0x00400004, 0x00400008) := by decide

/-- Vector L7. -/
theorem test_lb_wraps_to_unmapped :
    raisedOnly [(9, 0xFFFFFFFF)] 0x81280001 (.busErrorLoad 0) = true := by decide

/-- Vector L16. -/
theorem test_lw_big :
    seen 9 (run [(9, 0x10000000)] 0x8D290000) = some (0x11228344, 0x00400004, 0x00400008) := by decide

/-- Vector L10. -/
theorem test_lw_little :
    let s := { small [(9, 0x10000000)] with params := { smallParams with byteOrder := .little } }
    seen 8 (nextOf (step (s.withFetchWord 32 0x8D280000))) = some (0x44832211, 0x00400004, 0x00400008) := by decide

/-- Vector L22. -/
theorem test_sb_to_text :
    raisedOnly [(8, 0xAABBCCDD), (9, 0x00400001)] 0xA1280000 (.storeToText 0x00400001) = true := by decide

/-- Vector L28. -/
theorem test_sw_misaligned_text :
    raisedOnly [(9, 0x00400002)] 0xAD280000 (.addressErrorStore 0x00400002) = true := by decide

/-- Vector L19. -/
theorem test_sb :
    (run [(8, 0xAABBCCDD), (9, 0x10000000)] 0xA1280001).map (fun t => memWord .big t.mem 0x10000000) =
      some (some 0x11DD8344) := by decide

/-- Vector L23. -/
theorem test_sw :
    (run [(8, 0xAABBCCDD), (9, 0x10000000)] 0xAD280004).map (fun t => memByte t.mem 0x10000004) =
      some (some 0xAA) := by decide

/-! ### SYSCALL, reserved words, the fetch -/

/-- Vector Y3, `ENV_SYSCALL = halt`: the run ends after the SYSCALL, with the pc advanced. -/
theorem test_syscall :
    (run [] 0x0000004C).map (fun t => (t.pc, t.npc, t.halted, t.fault)) =
      some (0x00400004, 0x00400008, some 0x0000004C, none) := by decide

/-- Vector E1. -/
theorem test_reserved_all_ones :
    raisedOnly [] 0xFFFFFFFF (.reservedInstruction 0xFFFFFFFF) = true := by decide

/-- Vector S22: `srlv` with a printed zero set. -/
theorem test_reserved_printed_zeros :
    raisedOnly [(9, 0x80000000), (10, 4)] 0x01494046 (.reservedInstruction 0x01494046) = true := by decide

/-- Vector E19: the alignment of the fetch is checked before the map. -/
theorem test_fetch_misaligned :
    let s := { small [] with pc := 0x30000003, npc := 0x30000007 }
    nextOf (step s) = some { s with fault := some (.addressErrorFetch 0x30000003) } := by decide

/-- Vector E18. -/
theorem test_fetch_unmapped :
    let s := { small [] with pc := 0x30000000, npc := 0x30000004 }
    nextOf (step s) = some { s with fault := some (.busErrorFetch 0x30000000) } := by decide
/-! ## Witnesses: what meets the hypotheses of the statements -/

/-- The state a result holds. -/
def stateOf : Result → State
  | .next t => t
  | .fault _ | .refused _ => State.reset

theorem next_stateOf {r : Result} (h : (nextOf r).isSome = true) : r = .next (stateOf r) := by
  cases r <;> first | rfl | cases h

/-- The state of the vectors under other parameters. -/
def smallWith (p : Config.Params) (regs : List (RegNum × Word)) : State := { small regs with params := p }

/-! ### Encoding -/

theorem witness_DecodeOfEncodeReturnsTheInstruction :
    (Instr.sw 31#5 0xFFFF#16 31#5).wellFormed = true ∧ (Instr.sll 0#5 0#5 0#5).wellFormed = false := by decide

theorem witness_EncodeOfDecodeClearsOnlyIgnoredBits :
    decode 0x03FFFFC0#32 = .ok (.sll 31#5 31#5 31#5) ∧ ignoredBits (.sll 31#5 31#5 31#5) ≠ 0#32 := by decide

/-- A word of a row, a word of no row; rows 26 and 30 are NOOP's and SLL's, and share the word 0. -/
theorem witness_DecodeIsTheFirstSelectedTableRow :
    (opcodeTable.find? fun row => 0xAFFFFFFF#32 &&& row.maskBits == row.matchBits).isSome = true ∧
    (opcodeTable.find? fun row => 0xFFFFFFFF#32 &&& row.maskBits == row.matchBits).isSome = false ∧
    opcodeTable[26].build 0#32 = .noop ∧ opcodeTable[30].build 0#32 = .sll 0#5 0#5 0#5 ∧
    0#32 &&& opcodeTable[26].maskBits = opcodeTable[26].matchBits ∧
    0#32 &&& opcodeTable[30].maskBits = opcodeTable[30].matchBits := by decide

/-! ### The step -/

/-- ADD at the reset entry, in the state of the vectors. -/
def addState : State := (small [(9, 1), (10, 2)]).withFetchWord 32 0x012A4020

/-- BEQ, first where `npc` is `pc + 4`, then elsewhere under `literal`. -/
def beqState : State := (small []).withFetchWord 32 0x10000003

def literalState : State :=
  { (smallWith { smallParams with delaySlotBranch := .literal } []).withFetchWord 32 0x10000003 with npc := 0x00400100 }

theorem witness_StepRunsTheDecodedInstruction :
    addState.fault = none ∧ addState.halted = none ∧ addState.pc.toNat % 4 = 0 ∧
    admits addState.params .fetch .word addState.pc = true ∧
    memByte addState.mem addState.pc.toNat = some 0x01 ∧ memByte addState.mem (addState.pc.toNat + 1) = some 0x2A ∧
    memByte addState.mem (addState.pc.toNat + 2) = some 0x40 ∧
    memByte addState.mem (addState.pc.toNat + 3) = some 0x20 ∧
    decode (joinBytes addState.params.byteOrder 0x01 0x2A 0x40 0x20) = .ok (.add 8#5 9#5 10#5) ∧
    (isControlTransfer (.add 8#5 9#5 10#5) = true →
      addState.npc = addState.pc + 4 ∨ addState.params.delaySlotBranch = .literal) := by decide

theorem witness_StepRunsTheDecodedInstruction_transfer :
    isControlTransfer (.beq 0#5 0#5 3#16) = true ∧ beqState.npc = beqState.pc + 4 ∧
    memWord .big beqState.mem beqState.pc = some 0x10000003 ∧ decode 0x10000003#32 = .ok (.beq 0#5 0#5 3#16) ∧
    literalState.npc ≠ literalState.pc + 4 ∧ literalState.params.delaySlotBranch = .literal ∧
    memWord .big literalState.mem literalState.pc = some 0x10000003 := by decide

theorem witness_StepMakesItsChecksInOrder_terminal :
    ({ addState with fault := some .integerOverflow } : State).fault = some .integerOverflow := by decide

theorem witness_StepMakesItsChecksInOrder_fetch :
    (let s := { addState with pc := 0x00400003 };
      s.fault = none ∧ s.halted = none ∧ s.pc.toNat % 4 ≠ 0) ∧
    (let s := { addState with pc := 0x00400100 };
      s.fault = none ∧ s.halted = none ∧ s.pc.toNat % 4 = 0 ∧
        admits s.params .fetch .word s.pc = false) := by decide

theorem witness_StepMakesItsChecksInOrder_reserved :
    let s := (small []).withFetchWord 32 0xFFFFFFFF
    s.fault = none ∧ s.halted = none ∧ s.pc.toNat % 4 = 0 ∧ admits s.params .fetch .word s.pc = true ∧
      memWord s.params.byteOrder s.mem s.pc = some 0xFFFFFFFF ∧
      decode 0xFFFFFFFF#32 = .error (.reserved 0xFFFFFFFF) := by decide

theorem witness_StepMakesItsChecksInOrder_executes :
    addState.fault = none ∧ addState.halted = none ∧ addState.pc.toNat % 4 = 0 ∧
    admits addState.params .fetch .word addState.pc = true ∧
    memWord addState.params.byteOrder addState.mem addState.pc = some 0x012A4020 ∧
    decode 0x012A4020#32 = .ok (.add 8#5 9#5 10#5) ∧
    (let s := { beqState with npc := 0x00400100 };
      s.fault = none ∧ s.halted = none ∧ memWord s.params.byteOrder s.mem s.pc = some 0x10000003 ∧
        s.npc ≠ s.pc + 4 ∧ s.params.delaySlotBranch = .fault) := by decide

/-- ADD that overflows. -/
def overflowState : State := (small [(9, 0x7FFFFFFF), (10, 1)]).withFetchWord 32 0x012A4020

theorem witness_FaultsArePreciseAndTerminal :
    step overflowState = .next (stateOf (step overflowState)) ∧
      (stateOf (step overflowState)).fault = some .integerOverflow :=
  ⟨next_stateOf (by decide), by decide⟩

theorem witness_FaultsArePreciseAndTerminal_kept :
    let s := { addState with fault := some .integerOverflow }
    exec .noop s = .next (stateOf (exec .noop s)) ∧ s.fault ≠ none :=
  ⟨next_stateOf (by decide), by decide⟩

/-- SYSCALL in the state of the vectors. -/
def syscallState : State := (small []).withFetchWord 32 0x0000004C

theorem witness_RunsEndOnlyAtFaultsAndHaltedSyscalls :
    syscallState.fault = none ∧ syscallState.halted = none ∧
      step syscallState = .next (stateOf (step syscallState)) ∧
      (stateOf (step syscallState)).halted = some 0x0000004C ∧ (stateOf (step syscallState)).fault = none :=
  ⟨by decide, by decide, next_stateOf (by decide), by decide, by decide⟩

theorem witness_RunsEndOnlyAtFaultsAndHaltedSyscalls_ended :
    let s := stateOf (step syscallState)
    s.fault = none ∧ s.halted = some 0x0000004C#32 := by decide

/-- A fetch that meets an unspecified byte, and a fetched load that does. -/
theorem witness_RunsEndOnlyAtFaultsAndHaltedSyscalls_unspecified :
    FetchMeetsUnspecified State.reset ∧ State.reset.fault = none ∧ State.reset.halted = none ∧
    (let s := State.reset.withFetchWord 32 0x8C080100;
      s.fault = none ∧ s.halted = none ∧ memWord s.params.byteOrder s.mem s.pc = some 0x8C080100 ∧
        decode 0x8C080100#32 = .ok (.lw 8#5 0x100#16 0#5) ∧ LoadMeetsUnspecified (.lw 8#5 0x100#16 0#5) s 0x100#32) :=
  ⟨⟨by decide, by decide, 0, by decide, by decide⟩, by decide, by decide, by decide, by decide, by decide, by decide,
    .inr ⟨8#5, 0x100#16, 0#5, rfl, by decide, by decide, by decide, 3, by decide, by decide⟩⟩

/-- Loads at which the exception applies, LB and LW, and one at which it does not. -/
theorem witness_EveryInstructionCompletesButUnspecifiedLoads :
    LoadMeetsUnspecified (.lb 8#5 0xFFFF#16 0#5) State.reset 0xFFFFFFFF#32 ∧
    LoadMeetsUnspecified (.lw 8#5 0xFFFC#16 0#5) State.reset 0xFFFFFFFC#32 ∧
    (nextOf (exec (.lw 8#5 4#16 9#5) (small [(9, 0x10000000)]))).isSome = true :=
  ⟨.inl ⟨8#5, 0xFFFF#16, 0#5, rfl, by decide, by decide, 0, by decide, by decide⟩,
    .inr ⟨8#5, 0xFFFC#16, 0#5, rfl, by decide, by decide, by decide, 3, by decide, by decide⟩, by decide⟩

theorem witness_FirstStepAfterResetRunsThePlacedWord : decode 0xAFFFFFFF#32 = .ok (.sw 31#5 0xFFFF#16 31#5) := by decide

/-! ### Invariants -/

theorem small_inv : Inv addState := ⟨by decide, by decide, by decide⟩

theorem witness_EveryStepKeepsTheStateInvariant :
    Inv addState ∧ step addState = .next (stateOf (step addState)) :=
  ⟨small_inv, next_stateOf (by decide)⟩

theorem witness_NoStepChangesTheParameters : step addState = .next (stateOf (step addState)) :=
  next_stateOf (by decide)

/-- SB to the data. -/
def sbState : State := (small [(8, 0xAABBCCDD), (9, 0x10000000)]).withFetchWord 32 0xA1280001

theorem witness_FetchableWordsNeverChangeUnderRefuse :
    Inv sbState ∧ sbState.params.smc = .refuse ∧ sbState.params.envSyscall = .halt ∧
      Reachable sbState (stateOf (step sbState)) ∧ (stateOf (step sbState)).mem ≠ sbState.mem ∧
      aligned 0x004000FC#32 = true ∧ admits sbState.params .fetch .word 0x004000FC#32 = true :=
  ⟨⟨by decide, by decide, by decide⟩, by decide, by decide, .step .refl (next_stateOf (by decide)), by decide,
    by decide, by decide⟩

/-- SW to the text under `coherent`. -/
def coherentState : State :=
  smallWith { smallParams with smc := .coherent } [(8, 0x10000003), (9, 0x00400000)]

theorem witness_CoherentFetchSeesTheStoredWord :
    let t := stateOf (exec (.sw 8#5 4#16 9#5) coherentState)
    coherentState.mem.wf = true ∧ coherentState.params.smc = .coherent ∧ coherentState.fault = none ∧
      exec (.sw 8#5 4#16 9#5) coherentState = .next t ∧ t.fault = none ∧ t.params = coherentState.params ∧
      t.pc = effectiveAddress coherentState 9#5 4#16 ∧ admits coherentState.params .fetch .word t.pc = true :=
  ⟨by decide, by decide, by decide, next_stateOf (by decide), by decide, by decide, by decide, by decide⟩

/-! ### The program counters -/

theorem witness_EveryInstructionEndsWithItsPcUpdate :
    let t := stateOf (exec (.beq 0#5 0#5 0x8000#16) addState)
    exec (.beq 0#5 0#5 0x8000#16) addState = .next t ∧ addState.fault = none ∧ t.fault = none ∧
      addState.npc.toNat % 4 = 0 ∧ ∀ rs, Instr.beq 0#5 0#5 0x8000#16 ≠ .jr rs :=
  ⟨next_stateOf (by decide), by decide, by decide, by decide, fun _ h => (nomatch h)⟩

/-- BEQ at the entry and J in its delay slot, the branch's offset given. -/
def twoTransfers (policy : Config.DelaySlotPolicy) (offset : Nat) : State :=
  let s := smallWith { smallParams with delaySlotBranch := policy } []
  let m := memSetWord .big s.mem 0x00400000 (BitVec.ofNat 32 (0x10000000 + offset))
  { s with mem := memSetWord .big m 0x00400004 0x08100000 }

/-- The hypotheses common to the clauses, of the state after the branch. -/
def afterTransfer (s : State) (offset : Imm16) : Prop :=
  isControlTransfer (.beq 0#5 0#5 offset) = true ∧ s.fault = none ∧ s.halted = none ∧ s.npc = s.pc + 4 ∧
    exec (.beq 0#5 0#5 offset) s = .next (stateOf (exec (.beq 0#5 0#5 offset) s)) ∧
    let t := stateOf (exec (.beq 0#5 0#5 offset) s)
    aligned t.pc = true ∧ admits t.params .fetch .word t.pc = true ∧
      memWord t.params.byteOrder t.mem t.pc = some 0x08100000#32 ∧
      decode 0x08100000#32 = .ok (.j 0x0100000#26) ∧ isControlTransfer (.j 0x0100000#26) = true

theorem witness_ControlTransferInDelaySlotRaisesOnlyWhenTaken_taken :
    let s := twoTransfers .fault 3
    afterTransfer s 3#16 ∧ s.params.delaySlotBranch = .fault ∧
      (stateOf (exec (.beq 0#5 0#5 3#16) s)).npc ≠ s.pc + 8 :=
  ⟨⟨by decide, by decide, by decide, by decide, next_stateOf (by decide), by decide, by decide, by decide, by decide,
    by decide⟩, by decide, by decide⟩

theorem witness_ControlTransferInDelaySlotRaisesOnlyWhenTaken_fallThrough :
    let s := twoTransfers .fault 1
    afterTransfer s 1#16 ∧ (stateOf (exec (.beq 0#5 0#5 1#16) s)).npc = s.pc + 8 :=
  ⟨⟨by decide, by decide, by decide, by decide, next_stateOf (by decide), by decide, by decide, by decide, by decide,
    by decide⟩, by decide⟩

theorem witness_ControlTransferInDelaySlotRaisesOnlyWhenTaken_literal :
    let s := twoTransfers .literal 3
    afterTransfer s 3#16 ∧ s.params.delaySlotBranch = .literal :=
  ⟨⟨by decide, by decide, by decide, by decide, next_stateOf (by decide), by decide, by decide, by decide, by decide,
    by decide⟩, by decide⟩

theorem witness_EveryInstructionEndsWithItsPcUpdate_fetch :
    let s := { addState with pc := 0x00400001 }
    s.fault = none ∧ s.halted = none ∧ s.pc.toNat % 4 ≠ 0 := by decide

/-! ### Frames of the whole machine -/

theorem witness_OnlyStoresAndSyscallWriteMemory :
    exec (.add 8#5 9#5 10#5) addState = .next (stateOf (exec (.add 8#5 9#5 10#5) addState)) ∧
      (∀ rt offset rs, Instr.add 8#5 9#5 10#5 ≠ .sb rt offset rs) ∧
      (∀ rt offset rs, Instr.add 8#5 9#5 10#5 ≠ .sw rt offset rs) ∧ ∀ c, Instr.add 8#5 9#5 10#5 ≠ .syscall c :=
  ⟨next_stateOf (by decide), fun _ _ _ h => (nomatch h), fun _ _ _ h => (nomatch h), fun _ h => (nomatch h)⟩

theorem witness_OnlyMultiplyDivideAndSyscallWriteHiLo :
    exec (.mfhi 8#5) addState = .next (stateOf (exec (.mfhi 8#5) addState)) ∧
      (∀ rs rt, Instr.mfhi 8#5 ≠ .div rs rt) ∧ (∀ rs rt, Instr.mfhi 8#5 ≠ .divu rs rt) ∧
      (∀ rs rt, Instr.mfhi 8#5 ≠ .mult rs rt) ∧ (∀ rs rt, Instr.mfhi 8#5 ≠ .multu rs rt) ∧
      ∀ c, Instr.mfhi 8#5 ≠ .syscall c :=
  ⟨next_stateOf (by decide), fun _ _ h => (nomatch h), fun _ _ h => (nomatch h), fun _ _ h => (nomatch h),
    fun _ _ h => (nomatch h), fun _ h => (nomatch h)⟩

theorem witness_InstructionsWriteOnlyTheirDestination :
    exec (.jal 0#26) addState = .next (stateOf (exec (.jal 0#26) addState)) ∧
      (∀ c, Instr.jal 0#26 ≠ .syscall c) ∧ 9#5 ∉ destinations (.jal 0#26) ∧ 31#5 ∈ destinations (.jal 0#26) :=
  ⟨next_stateOf (by decide), fun _ h => (nomatch h), by decide, by decide⟩

/-! ### Arithmetic -/

/-- Both ends of the range of a signed word are reached without overflow, and the values beside them are not. -/
theorem witness_SignedArithmeticWritesTheExactResult :
    (let s := small [(9, 0x7FFFFFFE), (10, 1)];
      ¬((readReg s 9).toInt + (readReg s 10).toInt < -2 ^ 31 ∨
        (readReg s 9).toInt + (readReg s 10).toInt > 2 ^ 31 - 1)) ∧
    (let s := small [(9, 0x80008000)];
      ¬((readReg s 9).toInt + (0x8000#16).toInt < -2 ^ 31 ∨
        (readReg s 9).toInt + (0x8000#16).toInt > 2 ^ 31 - 1)) ∧
    (let s := small [(9, 0x80000001), (10, 1)];
      ¬((readReg s 9).toInt - (readReg s 10).toInt < -2 ^ 31 ∨
        (readReg s 9).toInt - (readReg s 10).toInt > 2 ^ 31 - 1)) := by decide

/-- The overflow nearest to the range, for each of the three. -/
theorem witness_OverflowIsRaisedByAddAddiSubAlone :
    overflowState.fault = none ∧
    exec (.add 8#5 9#5 10#5) overflowState = .next (stateOf (exec (.add 8#5 9#5 10#5) overflowState)) ∧
    (stateOf (exec (.add 8#5 9#5 10#5) overflowState)).fault = some .integerOverflow ∧
    (readReg overflowState 9).toInt + (readReg overflowState 10).toInt > 2 ^ 31 - 1 ∧
    (readReg overflowState 9).toInt + (1#16).toInt > 2 ^ 31 - 1 ∧
    (readReg (small [(10, 0x80000000)]) 0).toInt - (readReg (small [(10, 0x80000000)]) 10).toInt > 2 ^ 31 - 1 :=
  ⟨by decide, next_stateOf (by decide), by decide, by decide, by decide, by decide⟩

theorem witness_LuiWritesTheUpperHalf :
    0x3FFFFFFF#32 &&& 0xFC000000#32 = 0x3C000000#32 ∧ decode 0x3FFFFFFF#32 = .ok (.lui 31#5 0xFFFF#16) := by decide

/-! ### JR -/

theorem witness_JumpRegisterTakesAllBitsAndFaultsAtTheFetch :
    let s := small [(9, 0x00400101)]
    let t := stateOf (exec (.jr 9#5) s)
    let u := stateOf (exec .noop t)
    (readReg s 9#5).toNat % 4 ≠ 0 ∧ s.fault = none ∧ exec (.jr 9#5) s = .next t ∧ exec .noop t = .next u ∧
      u.fault = none ∧ u.halted = none :=
  ⟨by decide, by decide, next_stateOf (by decide), next_stateOf (by decide), by decide, by decide⟩

/-! ### Division -/

/-- -2^31 divided by 1 and 2^31 - 1 divided by -1 stand beside the corners. -/
theorem witness_SignedDivisionTruncatesTowardZero :
    (let s := small [(9, 0x80000000), (10, 1)];
      (readReg s 10).toInt ≠ 0 ∧ ¬((readReg s 9).toInt = -2 ^ 31 ∧ (readReg s 10).toInt = -1)) ∧
    (let s := small [(9, 0x7FFFFFFF), (10, 0xFFFFFFFF)];
      (readReg s 10).toInt ≠ 0 ∧ ¬((readReg s 9).toInt = -2 ^ 31 ∧ (readReg s 10).toInt = -1)) := by decide

theorem witness_UnsignedDivisionGivesQuotientAndRemainder : readReg (small [(10, 1)]) 10 ≠ 0#32 := by decide

theorem witness_DivisionCornersCompleteWithTheFreePair :
    readReg (small [(9, 5)]) 10 = 0#32 ∧
    (let s := small [(9, 0x80000000), (10, 0xFFFFFFFF)];
      readReg s 9 = 0x80000000#32 ∧ readReg s 10 = 0xFFFFFFFF#32) := by decide

/-! ### Loads and stores -/

/-- At the last byte of the data, and under both policies. -/
theorem witness_LoadByteExtendsTheByte :
    (let s := small [(9, 0x10000000)];
      admits s.params .read .byte (effectiveAddress s 9 7#16) = true ∧
        memByte s.mem (effectiveAddress s 9 7#16).toNat = some 0 ∧ s.params.lbExt = .sign) ∧
    (let s := smallWith { smallParams with lbExt := .zero } [(9, 0x10000003)];
      admits s.params .read .byte (effectiveAddress s 9 0xFFFF#16) = true ∧
        memByte s.mem (effectiveAddress s 9 0xFFFF#16).toNat = some 0x83 ∧ s.params.lbExt = .zero) := by decide

/-- In both byte orders. -/
theorem witness_LoadWordAssemblesByByteOrder :
    let s := small [(9, 0x10000004)]
    let addr := effectiveAddress s 9#5 0xFFFC#16
    addr.toNat % 4 = 0 ∧ admits s.params .read .word addr = true ∧
      memByte s.mem addr.toNat = some 0x11 ∧ memByte s.mem (addr.toNat + 1) = some 0x22 ∧
      memByte s.mem (addr.toNat + 2) = some 0x83 ∧ memByte s.mem (addr.toNat + 3) = some 0x44 ∧
      s.params.byteOrder = .big ∧
      (let s' := smallWith { smallParams with byteOrder := .little } [(9, 0x10000004)];
        effectiveAddress s' 9#5 0xFFFC#16 = addr ∧ s'.mem = s.mem ∧
          admits s'.params .read .word addr = true) := by decide

/-- Addresses 1, 2 and 3 past a word, a misaligned pc, and the byte accesses at a misaligned address. -/
theorem witness_MisalignedWordAccessesRaise :
    let s := small [(9, 0x10000000)]
    (∀ k : Fin 3, (effectiveAddress s 9#5 (BitVec.ofNat 16 (k.val + 1))).toNat % 4 ≠ 0) ∧
    (let u := { s with pc := 0x00400003 };
      u.fault = none ∧ u.halted = none ∧ u.pc.toNat % 4 ≠ 0) ∧
    s.fault = none ∧ exec (.lb 8#5 1#16 9#5) s = .next (stateOf (exec (.lb 8#5 1#16 9#5) s)) ∧
    exec (.sb 8#5 3#16 9#5) s = .next (stateOf (exec (.sb 8#5 3#16 9#5) s)) :=
  ⟨by decide, by decide, by decide, next_stateOf (by decide), next_stateOf (by decide)⟩

/-- One past the data for the map, the last byte and the last word of the text for the stores. -/
theorem witness_RefusedAccessesRaiseWithTheirAddress :
    (let s := small [(9, 0x10000000)];
      let addr := effectiveAddress s 9#5 8#16;
      addr.toNat % 4 = 0 ∧ admits s.params .read .byte addr = false ∧ admits s.params .read .word addr = false ∧
        admits s.params .write .byte addr = false ∧ admits s.params .write .word addr = false) ∧
    (let s := small [(9, 0x00400000)];
      let addr := effectiveAddress s 9#5 0xFF#16;
      admits s.params .write .byte addr = true ∧ s.params.smc = .refuse ∧
        admits s.params .fetch .word (addr - BitVec.ofNat 32 (addr.toNat % 4)) = true) ∧
    (let s := small [(9, 0x00400000)];
      let addr := effectiveAddress s 9#5 0xFC#16;
      addr.toNat % 4 = 0 ∧ admits s.params .write .word addr = true ∧ s.params.smc = .refuse ∧
        admits s.params .fetch .word addr = true) := by decide

/-- Outside the text, and in it under `coherent`. -/
theorem witness_StoreByteChangesExactlyOneByte :
    (let s := small [(9, 0x10000000)];
      s.mem.wf = true ∧ admits s.params .write .byte (effectiveAddress s 9#5 7#16) = true ∧
        inText s.params (effectiveAddress s 9#5 7#16) = false) ∧
    (coherentState.mem.wf = true ∧
      admits coherentState.params .write .byte (effectiveAddress coherentState 9#5 0#16) = true ∧
      coherentState.params.smc = .coherent) := by decide

theorem witness_StoreWordChangesExactlyFourBytes :
    (let s := small [(9, 0x10000000)];
      s.mem.wf = true ∧ (effectiveAddress s 9#5 4#16).toNat % 4 = 0 ∧
        admits s.params .write .word (effectiveAddress s 9#5 4#16) = true ∧
        admits s.params .fetch .word (effectiveAddress s 9#5 4#16) = false) ∧
    (coherentState.mem.wf = true ∧ (effectiveAddress coherentState 9#5 0#16).toNat % 4 = 0 ∧
      admits coherentState.params .write .word (effectiveAddress coherentState 9#5 0#16) = true ∧
      coherentState.params.smc = .coherent) := by decide

theorem witness_LoadWordAfterStoreWordReadsItBack :
    let s := small [(8, 0xAABBCCDD), (9, 0x10000000)]
    let t := stateOf (exec (.sw 8#5 4#16 9#5) s)
    let u := stateOf (exec (.lw 10#5 4#16 9#5) t)
    s.mem.wf = true ∧ s.fault = none ∧ exec (.sw 8#5 4#16 9#5) s = .next t ∧ t.fault = none ∧
      effectiveAddress t 9#5 4#16 = effectiveAddress s 9#5 4#16 ∧
      exec (.lw 10#5 4#16 9#5) t = .next u ∧ u.fault = none ∧ 10#5 ≠ 0#5 :=
  ⟨by decide, by decide, next_stateOf (by decide), by decide, by decide, next_stateOf (by decide),
    by decide, by decide⟩

/-- After reset no byte has a value; a word with its last byte missing is the other end of the clause. -/
theorem witness_LoadsOfUnwrittenBytesStopByName :
    (let addr := effectiveAddress State.reset 0#5 0x7FFC#16;
      admits State.reset.params .read .byte addr = true ∧ memByte State.reset.mem addr.toNat = none ∧
        addr.toNat % 4 = 0 ∧ admits State.reset.params .read .word addr = true) ∧
    (let s := { small [(9, 0x10000004)] with mem := memErase (small []).mem 0x10000007 };
      (effectiveAddress s 9#5 0#16).toNat % 4 = 0 ∧ admits s.params .read .word (effectiveAddress s 9#5 0#16) = true ∧
        ∃ k < 4, memByte s.mem ((effectiveAddress s 9#5 0#16).toNat + k) = none) := by decide

theorem witness_LoadsOfUnwrittenBytesStopByName_fetch :
    State.reset.fault = none ∧ State.reset.halted = none ∧ State.reset.pc.toNat % 4 = 0 ∧
    admits State.reset.params .fetch .word State.reset.pc = true ∧
    (∃ k < 4, memByte State.reset.mem (State.reset.pc.toNat + k) = none) ∧
    (let s := { addState with mem := memErase addState.mem 0x00400003 };
      s.fault = none ∧ s.halted = none ∧ s.pc.toNat % 4 = 0 ∧ admits s.params .fetch .word s.pc = true ∧
        ∃ k < 4, memByte s.mem (s.pc.toNat + k) = none) := by decide

/-! ### SYSCALL and launch -/

theorem witness_SyscallHandsTheStateToTheEnvironment :
    (small []).params.envSyscall = .halt ∧
      (smallWith { smallParams with envSyscall := .environment } []).params.envSyscall = .environment ∧
      Memory.wf (small []).mem = true := by decide

theorem witness_LaunchStateIsBuiltFromEntryAndInit :
    (1#5 : RegNum) ≠ 0#5 ∧ (31#5 : RegNum) ≠ 0#5 ∧ Memory.wf (small []).mem = true := by decide

/-- At the first and at the last word of a text. -/
theorem witness_LaunchMeetsTheLaunchPremises :
    (0x00400000#32).toNat % 4 = 0 ∧ admits smallParams .fetch .word 0x00400000#32 = true ∧
    (0x004000FC#32).toNat % 4 = 0 ∧ admits smallParams .fetch .word 0x004000FC#32 = true := by decide

/-- Addresses of the text, and addresses that are none. -/
theorem witness_LaunchPremises_text :
    (0x00400000#32).toNat % 4 = 0 ∧ inText smallParams 0x00400000#32 = true ∧
    inText smallParams 0x004000FC#32 = true ∧ inText smallParams 0x00400100#32 = false ∧
    inText smallParams 0x10000000#32 = false ∧ smallParams.smc = .refuse := by decide

end Sys2Proof.Tests
end

section
/-! SUPPORT. The checks of a step (spec/10_state.md R26) one by one, and the ends of an instruction at the program
counters (R25): how each shared ending moves them, and that no ending but JR's takes `npc` off a multiple of 4. -/

namespace Sys2Proof.Machine

/-! ## The outcome of a step by what it finds -/

theorem step_of_stops {s : State} {f : Fault} (h : pending s = .stops f) : step s = .fault f := by
  simp [step, h]

theorem step_of_raises {s : State} {r : FaultRecord} (h : pending s = .raises r) :
    step s = .next { s with fault := some r } := by
  simp [step, h, raise]

theorem step_of_executes {s : State} {i : Instr} (h : pending s = .executes i) : step s = exec i s := by
  simp [step, h]

/-- A fault record ends the run, whatever else the state holds (R204). -/
theorem runStopped_of_fault {s : State} {r : FaultRecord} (h : s.fault = some r) :
    runStopped s = some (.terminal r) := by
  simp [runStopped, h]

/-- A state with a fault record takes no step (R204). -/
theorem step_of_fault {s : State} {r : FaultRecord} (h : s.fault = some r) : step s = .fault (.terminal r) :=
  step_of_stops (pending_stops.mpr (.inl (runStopped_of_fault h)))

/-! ## The checks of a step, in their order -/

theorem aligned_eq_false_iff (addr : Word) : aligned addr = false ↔ addr.toNat % 4 ≠ 0 := by
  rw [← Bool.not_eq_true, aligned_iff]

/-- The condition under which R133 refuses a control transfer. -/
theorem delaySlotRefuses_iff {s : State} {i : Instr} :
    delaySlotRefuses s i = true ↔
      isControlTransfer i = true ∧ s.npc ≠ s.pc + 4 ∧ s.params.delaySlotBranch = .fault := by
  simp [delaySlotRefuses, and_assoc]

/-- What a fetched word that no row of the table matches comes to (R70, R205). -/
theorem pendingOfWord_of_error {s : State} {w : Word} {e : DecodeReject} (h : decode w = .error e) :
    pendingOfWord s w = .raises (.reservedInstruction w) := by
  simp [pendingOfWord, h]

/-- What a fetched word that decodes comes to (R26, R133). -/
theorem pendingOfWord_of_ok {s : State} {w : Word} {i : Instr} (h : decode w = .ok i) :
    pendingOfWord s w =
      if delaySlotRefuses s i = true then .raises (.unpredictableDelaySlot w) else .executes i := by
  simp [pendingOfWord, h]

/-- A fault of the fetch is what the step finds. -/
theorem pending_of_fetchWord_raises {s : State} {r : FaultRecord} (hr : runStopped s = none)
    (hf : fetchWord s = .raises r) : pending s = .raises r := by
  simp [pending, hr, hf]

/-- Past the fetch, only the fetched word counts. -/
theorem pending_of_fetchWord_value {s : State} {w : Word} (hr : runStopped s = none)
    (hf : fetchWord s = .value w) : pending s = pendingOfWord s w := by
  simp [pending, hr, hf]

/-- The first check: a fetch from an address that is no multiple of 4 raises (R25, R202). -/
theorem step_of_misaligned_pc {s : State} (hr : runStopped s = none) (hpc : s.pc.toNat % 4 ≠ 0) :
    step s = .next { s with fault := some (.addressErrorFetch s.pc) } :=
  step_of_raises (pending_of_fetchWord_raises hr
    (fetchWord_raises.mpr (.inl ⟨(aligned_eq_false_iff _).mpr hpc, rfl⟩)))

/-- The second check: the map refuses the fetch (R203). -/
theorem step_of_unmapped_pc {s : State} (hr : runStopped s = none) (hpc : s.pc.toNat % 4 = 0)
    (hm : admits s.params .fetch .word s.pc = false) :
    step s = .next { s with fault := some (.busErrorFetch s.pc) } :=
  step_of_raises (pending_of_fetchWord_raises hr
    (fetchWord_raises.mpr (.inr ⟨(aligned_iff _).mpr hpc, hm, rfl⟩)))

/-- The third check: the fetched word is reserved (R205). -/
theorem step_of_decode_error {s : State} {w : Word} {e : DecodeReject} (hr : runStopped s = none)
    (hf : fetchWord s = .value w) (hd : decode w = .error e) :
    step s = .next { s with fault := some (.reservedInstruction w) } :=
  step_of_raises ((pending_of_fetchWord_value hr hf).trans (pendingOfWord_of_error hd))

/-- The last check: a control transfer in the delay slot of a taken one is refused (R133, R206). -/
theorem step_of_delaySlotRefuses {s : State} {w : Word} {i : Instr} (hr : runStopped s = none)
    (hf : fetchWord s = .value w) (hd : decode w = .ok i) (hs : delaySlotRefuses s i = true) :
    step s = .next { s with fault := some (.unpredictableDelaySlot w) } := by
  refine step_of_raises ?_
  rw [pending_of_fetchWord_value hr hf, pendingOfWord_of_ok hd, if_pos hs]

/-- After every check, the decoded instruction executes. -/
theorem step_of_delaySlot_allowed {s : State} {w : Word} {i : Instr} (hr : runStopped s = none)
    (hf : fetchWord s = .value w) (hd : decode w = .ok i) (hs : delaySlotRefuses s i = false) :
    step s = exec i s :=
  step_of_executes (pending_executes.mpr ⟨hr, w, hf, hd, hs⟩)

/-! ## The program counters after each ending (R25) -/

/-- An instruction from `s` with this result ends at the program counters as R25 asks: `pc` is the old `npc`, `npc` is
`n` and the fault record is as before; or it raises and changes nothing else. -/
def EndsWithPc (s : State) (n : Word) (res : Result) : Prop :=
  ∀ t, res = .next t → (t.pc = s.npc ∧ t.npc = n ∧ t.fault = s.fault) ∨ ∃ r, t = { s with fault := some r }

theorem endsWithPc_next {s t : State} {n : Word} (hpc : t.pc = s.npc) (hnpc : t.npc = n) (hf : t.fault = s.fault) :
    EndsWithPc s n (.next t) := by
  rintro u ⟨⟩
  exact .inl ⟨hpc, hnpc, hf⟩

theorem endsWithPc_raise (s : State) (n : Word) (r : FaultRecord) : EndsWithPc s n (raise r s) :=
  fun _ h => .inr ⟨r, raise_next.mp h⟩

/-- A check that raises before the ending. -/
theorem EndsWithPc.raiseIf {s : State} {n : Word} {res : Result} (h : EndsWithPc s n res) (c : Bool)
    (r : FaultRecord) : EndsWithPc s n (if c then raise r s else res) := by
  cases c
  · exact h
  · exact endsWithPc_raise s n r

theorem endsWithPc_finishWrite (s : State) (i : RegNum) (v : Word) :
    EndsWithPc s (s.npc + 4) (finishWrite s i v) :=
  endsWithPc_next (by simp) (by simp) (by simp)

theorem endsWithPc_finishLoad {α : Type} (s : State) (rt : RegNum) (widen : α → Word) (r : ReadResult α) :
    EndsWithPc s (s.npc + 4) (finishLoad s rt widen r) := by
  intro t h
  rcases finishLoad_next.mp h with ⟨v, -, rfl⟩ | ⟨f, -, rfl⟩
  · exact .inl ⟨by simp, by simp, by simp⟩
  · exact .inr ⟨f, rfl⟩

/-- A store that is made keeps `npc` and the fault record up to its `advance_pc(4)`. -/
theorem endsWithPc_finishStore {s : State} {res : Except FaultRecord State}
    (hok : ∀ u, res = .ok u → u.npc = s.npc ∧ u.fault = s.fault) :
    EndsWithPc s (s.npc + 4) (finishStore s res) := by
  intro t h
  rcases finishStore_next.mp h with ⟨u, hu, rfl⟩ | ⟨f, -, rfl⟩
  · obtain ⟨hnpc, hf⟩ := hok u hu
    exact .inl ⟨by simp [hnpc], by simp [hnpc], by simp [hf]⟩
  · exact .inr ⟨f, rfl⟩

theorem endsWithPc_finishDivision (s : State) (p : Word × Word) : EndsWithPc s (s.npc + 4) (finishDivision s p) :=
  endsWithPc_next (by simp) (by simp) (by simp)

/-- The displacement of a taken branch is 4 times the signed offset (R120). -/
theorem branchDisplacement_eq_ofInt (offset : Imm16) : branchDisplacement offset =
    BitVec.ofInt 32 (4 * offset.toInt) := by
  rw [branchDisplacement, signImm, BitVec.signExtend, BitVec.shiftLeft_eq_mul_twoPow, BitVec.mul_comm, BitVec.ofInt_mul]
  rfl

/-- The target of J and JAL as exact numbers (R129). -/
theorem jumpTarget_eq_ofNat (slot : Word) (target : Target26) :
    jumpTarget slot target = (slot &&& 0xF0000000#32) ||| BitVec.ofNat 32 (4 * target.toNat) := by
  have index : target.setWidth 32 <<< 2 = BitVec.ofNat 32 (4 * target.toNat) := by
    rw [BitVec.shiftLeft_eq_mul_twoPow, BitVec.mul_comm, BitVec.ofNat_mul, BitVec.ofNat_toNat]
    rfl
  rw [jumpTarget, index]
  rfl

/-- A branch from `u`, the state `s` after a link or `s` itself, ends at the sum of R120. -/
theorem endsWithPc_branch {s u : State} {taken c : Bool} (hc : taken = c) (offset : Imm16) (hnpc : u.npc = s.npc)
    (hf : u.fault = s.fault) : EndsWithPc s (npcAfter.branchTo s c offset) (.next (branch u taken offset)) := by
  subst hc
  refine endsWithPc_next (by simp [hnpc]) ?_ (by simp [hf])
  simp [npcAfter.branchTo, hnpc, branchDisplacement_eq_ofInt]

/-- What every instruction does to the program counters: it moves `npc` to `pc` and puts `npcAfter` in `npc`, or it
raises and changes nothing else (R25). -/
theorem exec_endsWithPc (i : Instr) (s : State) : EndsWithPc s (npcAfter s i) (exec i s) := by
  cases i with
  | add | addi | sub => exact (endsWithPc_finishWrite s _ _).raiseIf _ _
  | addiu | addu | subu | and | andi | or | ori | xor | xori | lui | mfhi | mflo
  | sll | sllv | sra | srl | srlv | slt | slti | sltiu | sltu => exact endsWithPc_finishWrite s _ _
  | beq | bgez | bgtz | blez | bltz => exact endsWithPc_branch rfl _ rfl rfl
  | bne => exact endsWithPc_branch (by simp [bne, beq_eq_decide]) _ rfl rfl
  | bgezal | bltzal => exact endsWithPc_branch rfl _ (branchLink_npc _ _) (branchLink_fault _ _)
  | j target => exact endsWithPc_next rfl (jumpTarget_eq_ofNat s.npc target) rfl
  | jal target => exact endsWithPc_next (by simp) (jumpTarget_eq_ofNat s.npc target) (by simp)
  | jr | noop | mult | multu => exact endsWithPc_next rfl rfl rfl
  | div | divu => exact endsWithPc_finishDivision s _
  | lb | lw => exact endsWithPc_finishLoad s _ _ _
  | sb =>
    refine endsWithPc_finishStore fun u hu => ?_
    obtain ⟨-, rfl⟩ := writeByte_ok.mp hu
    exact ⟨rfl, rfl⟩
  | sw =>
    refine endsWithPc_finishStore fun u hu => ?_
    obtain ⟨-, -, rfl⟩ := writeWord_ok.mp hu
    exact ⟨rfl, rfl⟩
  | syscall => exact endsWithPc_next (by simp) (by simp [npcAfter]) (by simp)

/-- An instruction that gives a next state without a fault record did not raise. -/
theorem exec_pc_of_no_fault {i : Instr} {s t : State} (h : exec i s = .next t) (hf : t.fault = none) :
    t.pc = s.npc ∧ t.npc = npcAfter s i := by
  rcases exec_endsWithPc i s t h with ⟨hpc, hnpc, -⟩ | ⟨r, rfl⟩
  · exact ⟨hpc, hnpc⟩
  · cases hf

/-! ## Multiples of 4 (R25) -/

theorem toNat_add_mod_four {a b : Word} (ha : a.toNat % 4 = 0) (hb : b.toNat % 4 = 0) : (a + b).toNat % 4 = 0 := by
  bv_omega

theorem toNat_ofInt_four_mul_mod_four (k : Int) : (BitVec.ofInt 32 (4 * k)).toNat % 4 = 0 := by
  rw [BitVec.toNat_ofInt]
  omega

theorem branchTo_mod_four {s : State} (h : s.npc.toNat % 4 = 0) (taken : Bool) (offset : Imm16) :
    (npcAfter.branchTo s taken offset).toNat % 4 = 0 := by
  refine toNat_add_mod_four h ?_
  cases taken
  · simp
  · exact toNat_ofInt_four_mul_mod_four _

/-- The target of J and JAL is a multiple of 4 wherever the delay slot is. -/
theorem jumpTarget_mod_four (slot : Word) (target : Target26) :
    ((slot &&& 0xF0000000#32) ||| BitVec.ofNat 32 (4 * target.toNat)).toNat % 4 = 0 := by
  have region : (slot.toNat &&& 0xF0000000) % 2 ^ 2 = 0 := by
    rw [Nat.and_mod_two_pow]; simp
  have index : 4 * target.toNat % 2 ^ 32 % 2 ^ 2 = 0 := by omega
  rw [BitVec.toNat_or, BitVec.toNat_and, BitVec.toNat_ofNat, BitVec.toNat_ofNat]
  exact Nat.or_mod_two_pow.trans (congrArg₂ (· ||| ·) region index)

/-- Every value an instruction puts in `npc` is a multiple of 4 if `npc` was one, but for JR's (R25, R134). -/
theorem npcAfter_mod_four {i : Instr} {s : State} (h : s.npc.toNat % 4 = 0) (hjr : ∀ rs, i ≠ .jr rs) :
    (npcAfter s i).toNat % 4 = 0 := by
  cases i with
  | jr rs => exact absurd rfl (hjr rs)
  | j target | jal target => exact jumpTarget_mod_four s.npc target
  | beq | bgez | bgezal | bgtz | blez | bltz | bltzal | bne => exact branchTo_mod_four h _ _
  | _ => exact toNat_add_mod_four h rfl

/-! ## The statements of R25 and R26 -/

/-- Settles O6: each check of R26 by its own lemma, under the hypothesis that the checks before it passed. -/
theorem stepMakesItsChecksInOrder : Obligations.StepMakesItsChecksInOrder := by
  refine ⟨fun s r => step_of_fault, fun s hfault hhalted => ?_⟩
  have running : runStopped s = none := runStopped_none.mpr ⟨hfault, hhalted⟩
  refine ⟨step_of_misaligned_pc running, step_of_unmapped_pc running, fun w hpc hmap hmem => ?_⟩
  have fetched : fetchWord s = .value w := fetchWord_value.mpr ⟨(aligned_iff _).mpr hpc, hmap, hmem⟩
  refine ⟨fun reserved => ?_, fun i hd => ?_⟩
  · cases hd : decode w with
    | error e => exact step_of_decode_error running fetched hd
    | ok i => exact absurd hd (reserved i)
  · split
    · next refused =>
      exact step_of_delaySlotRefuses running fetched hd (delaySlotRefuses_iff.mpr refused)
    · next allowed =>
      exact step_of_delaySlot_allowed running fetched hd
        (Bool.eq_false_iff.mpr (mt delaySlotRefuses_iff.mp allowed))

/-- Settles O16: the pc update of every instruction, the multiples of 4, and the first check of the next step. -/
theorem everyInstructionEndsWithItsPcUpdate : Obligations.EveryInstructionEndsWithItsPcUpdate := by
  refine ⟨fun i s t hexec _ hf => ?_, fun s hfault hhalted =>
    step_of_misaligned_pc (runStopped_none.mpr ⟨hfault, hhalted⟩)⟩
  obtain ⟨hpc, hnpc⟩ := exec_pc_of_no_fault hexec hf
  exact ⟨hpc, hnpc, fun h hjr => hnpc ▸ npcAfter_mod_four h hjr⟩

end Sys2Proof.Machine
end

section
/-! SUPPORT. Alignment of the loads and stores (spec/20_memory.md R42): where LW and SW raise before the access, and the
faults that LB and SB can raise. -/

namespace Sys2Proof.Machine

/-! ## The alignment check of LW and SW -/

theorem exec_lw_of_misaligned {s : State} {rt rs : RegNum} {offset : Imm16}
    (h : (effectiveAddress s rs offset).toNat % 4 ≠ 0) :
    exec (.lw rt offset rs) s =
      .next { s with fault := some (.addressErrorLoad (effectiveAddress s rs offset)) } :=
  finishLoad_next.mpr (.inr ⟨_, readWord_raises.mpr (.inl ⟨(aligned_eq_false_iff _).mpr h, rfl⟩), rfl⟩)

theorem exec_sw_of_misaligned {s : State} {rt rs : RegNum} {offset : Imm16}
    (h : (effectiveAddress s rs offset).toNat % 4 ≠ 0) :
    exec (.sw rt offset rs) s =
      .next { s with fault := some (.addressErrorStore (effectiveAddress s rs offset)) } :=
  finishStore_next.mpr (.inr ⟨_, writeWord_error.mpr (.inl ⟨(aligned_eq_false_iff _).mpr h, rfl⟩), rfl⟩)

/-! ## The fault records of LB and SB -/

/-- LB writes no fault record but the bus error of the map (R42, R43). -/
theorem exec_lb_next_fault {s t : State} {rt rs : RegNum} {offset : Imm16} (h : exec (.lb rt offset rs) s = .next t) :
    t.fault = s.fault ∨ t.fault = some (.busErrorLoad (effectiveAddress s rs offset)) := by
  rcases finishLoad_next.mp h with ⟨v, -, rfl⟩ | ⟨r, hr, rfl⟩
  · exact .inl (by simp)
  · obtain ⟨-, rfl⟩ := readByte_raises.mp hr
    exact .inr rfl

/-- SB writes no fault record but the bus error of the map and the refusal of the program text (R42, R44). -/
theorem exec_sb_next_fault {s t : State} {rt rs : RegNum} {offset : Imm16} (h : exec (.sb rt offset rs) s = .next t) :
    t.fault = s.fault ∨ t.fault = some (.busErrorStore (effectiveAddress s rs offset)) ∨
      t.fault = some (.storeToText (effectiveAddress s rs offset)) := by
  rcases finishStore_next.mp h with ⟨u, hu, rfl⟩ | ⟨r, hr, rfl⟩
  · obtain ⟨-, rfl⟩ := writeByte_ok.mp hu
    exact .inl (by simp)
  · rcases writeFault_some.mp (writeByte_error.mp hr) with ⟨-, rfl⟩ | ⟨-, -, -, rfl⟩
    · exact .inr (.inl rfl)
    · exact .inr (.inr rfl)

/-! ## The statement of R42 -/

/-- Settles O39: the alignment check of each word access by its own lemma, and the byte accesses by the list of the
records they can write, none of which is an address error. -/
theorem misalignedWordAccessesRaise : Obligations.MisalignedWordAccessesRaise := by
  intro s rt rs offset addr
  refine ⟨fun misaligned => ⟨exec_lw_of_misaligned misaligned, exec_sw_of_misaligned misaligned⟩,
    fun hfault hhalted => step_of_misaligned_pc (runStopped_none.mpr ⟨hfault, hhalted⟩), ?_⟩
  rintro hfault t a (hlb | hsb)
  · rcases exec_lb_next_fault hlb with h | h <;> simp [h, hfault]
  · rcases exec_sb_next_fault hsb with h | h | h <;> simp [h, hfault]

end Sys2Proof.Machine
end

section
/-! SUPPORT. The opcode map of spec/30_encoding.md R67 against the table of R65 (R69). Each row's mask covers the fields
that the opcode map branches on, so the table may be cut down to the rows with the word's own value in such a field; a
branch of the decoder is then left with the few rows it stands for. -/

namespace Sys2Proof

/-! ## Words and rows by their fields (R61, R62) -/

/-- The six fields of the R format make up the whole word (R60). -/
theorem word_eq_iff_fields {v w : Word} : v = w ↔ opcodeOf v = opcodeOf w ∧ rsOf v = rsOf w ∧ rtOf v = rtOf w ∧
    rdOf v = rdOf w ∧ shamtOf v = shamtOf w ∧ functOf v = functOf w := by
  have whole (u : Word) : u = opcodeOf u ++ rsOf u ++ rtOf u ++ rdOf u ++ shamtOf u ++ functOf u := by
    unfold opcodeOf rsOf rtOf rdOf shamtOf functOf
    iterate 5 rw [BitVec.extractLsb'_append_extractLsb'_eq_extractLsb' (by decide)]
    exact BitVec.extractLsb'_eq_self.symm
  constructor
  · rintro rfl
    exact ⟨rfl, rfl, rfl, rfl, rfl, rfl⟩
  · rintro ⟨opcode, rs, rt, rd, shamt, funct⟩
    rw [whole v, whole w, opcode, rs, rt, rd, shamt, funct]

theorem OpcodeRow.selects_iff {r : OpcodeRow} {w : Word} : r.selects w = true ↔ w &&& r.maskBits = r.matchBits := by
  simp [selects]

/-- A row is selected field by field. -/
theorem OpcodeRow.selects_iff_fields {r : OpcodeRow} {w : Word} : r.selects w = true ↔
    opcodeOf w &&& opcodeOf r.maskBits = opcodeOf r.matchBits ∧ rsOf w &&& rsOf r.maskBits = rsOf r.matchBits ∧
    rtOf w &&& rtOf r.maskBits = rtOf r.matchBits ∧ rdOf w &&& rdOf r.maskBits = rdOf r.matchBits ∧
    shamtOf w &&& shamtOf r.maskBits = shamtOf r.matchBits ∧
    functOf w &&& functOf r.maskBits = functOf r.matchBits := by
  simp only [selects_iff, word_eq_iff_fields, opcodeOf_and, rsOf_and, rtOf_and, rdOf_and, shamtOf_and, functOf_and]

/-! The fields of a numeral, so that simp computes those of a match or mask, and a field under a full mask. -/

@[simp] theorem opcodeOf_ofNat (n : Nat) : opcodeOf (BitVec.ofNat 32 n) = (BitVec.ofNat 32 n).extractLsb' 26 6 := rfl
@[simp] theorem rsOf_ofNat (n : Nat) : rsOf (BitVec.ofNat 32 n) = (BitVec.ofNat 32 n).extractLsb' 21 5 := rfl
@[simp] theorem rtOf_ofNat (n : Nat) : rtOf (BitVec.ofNat 32 n) = (BitVec.ofNat 32 n).extractLsb' 16 5 := rfl
@[simp] theorem rdOf_ofNat (n : Nat) : rdOf (BitVec.ofNat 32 n) = (BitVec.ofNat 32 n).extractLsb' 11 5 := rfl
@[simp] theorem shamtOf_ofNat (n : Nat) : shamtOf (BitVec.ofNat 32 n) = (BitVec.ofNat 32 n).extractLsb' 6 5 := rfl
@[simp] theorem functOf_ofNat (n : Nat) : functOf (BitVec.ofNat 32 n) = (BitVec.ofNat 32 n).extractLsb' 0 6 := rfl

@[simp] theorem and_full_five (v : BitVec 5) : v &&& 31#5 = v := BitVec.and_allOnes
@[simp] theorem and_full_six (v : BitVec 6) : v &&& 63#6 = v := BitVec.and_allOnes

/-! ## The first selected row of a list (R69) -/

/-- The answer of R69 on any list of rows: the first that `w` selects, with its operands. -/
def firstSelected (rows : List OpcodeRow) (w : Word) : Except DecodeReject Instr :=
  match rows.find? (·.selects w) with
  | some row => .ok (row.build w)
  | none => .error (.reserved w)

@[simp] theorem firstSelected_nil (w : Word) : firstSelected [] w = .error (.reserved w) := rfl

@[simp] theorem firstSelected_cons (r : OpcodeRow) (rows : List OpcodeRow) (w : Word) :
    firstSelected (r :: rows) w = if r.selects w then .ok (r.build w) else firstSelected rows w := by
  unfold firstSelected
  cases h : r.selects w <;> simp [h]

/-- The rows whose match has the value `v` in a field. -/
def rowsWith {n : Nat} (field : Word → BitVec n) (v : BitVec n) (rows : List OpcodeRow) : List OpcodeRow :=
  rows.filter fun r => v == field r.matchBits

@[simp] theorem rowsWith_nil {n : Nat} (field : Word → BitVec n) (v : BitVec n) : rowsWith field v [] = [] := rfl

@[simp] theorem rowsWith_cons {n : Nat} (field : Word → BitVec n) (v : BitVec n) (r : OpcodeRow)
    (rows : List OpcodeRow) : rowsWith field v (r :: rows) =
      if v = field r.matchBits then r :: rowsWith field v rows else rowsWith field v rows := by
  simp [rowsWith, List.filter_cons]

theorem rowsWith_eq_nil {n : Nat} {field : Word → BitVec n} {v : BitVec n} {rows : List OpcodeRow}
    (h : ∀ r ∈ rows, v ≠ field r.matchBits) : rowsWith field v rows = [] := by
  simpa [rowsWith, List.filter_eq_nil_iff] using h

/-- Where every mask covers a field, only the rows with the word's value in that field count. -/
theorem firstSelected_rowsWith {n : Nat} {field : Word → BitVec n} {rows : List OpcodeRow} {w : Word}
    (field_and : ∀ a b, field (a &&& b) = field a &&& field b)
    (masked : ∀ r ∈ rows, field r.maskBits = BitVec.allOnes n) :
    firstSelected rows w = firstSelected (rowsWith field (field w) rows) w := by
  induction rows with
  | nil => rfl
  | cons r rows ih =>
    obtain ⟨maskedHead, maskedTail⟩ := List.forall_mem_cons.mp masked
    rw [firstSelected_cons, rowsWith_cons, ih maskedTail]
    by_cases selected : r.selects w = true
    · have kept : field w = field r.matchBits := by
        rw [← OpcodeRow.selects_iff.mp selected, field_and, maskedHead, BitVec.and_allOnes]
      rw [if_pos kept, firstSelected_cons]
    · rw [if_neg selected]
      split
      · rw [firstSelected_cons, if_neg selected]
      · rfl

/-! ## The fields the opcode map branches on are masked (R65, R67) -/

theorem opcode_masked : ∀ r ∈ opcodeTable, opcodeOf r.maskBits = BitVec.allOnes 6 := by decide

theorem funct_masked : ∀ r ∈ rowsWith opcodeOf 0#6 opcodeTable, functOf r.maskBits = BitVec.allOnes 6 := by decide

theorem rt_masked : ∀ r ∈ rowsWith opcodeOf 1#6 opcodeTable, rtOf r.maskBits = BitVec.allOnes 5 := by decide

/-! ## The decoder, list by list (R67) -/

/-- List (a): where the table has two rows, NOOP's comes first and takes the word 0 alone. -/
theorem decodeFunct_eq_firstSelected {w : Word} (opcode : opcodeOf w = 0#6) :
    decodeFunct w = firstSelected (rowsWith opcodeOf 0#6 opcodeTable) w := by
  rw [firstSelected_rowsWith functOf_and funct_masked]
  unfold decodeFunct
  split
  case h_1 funct =>
    obtain ⟨-, funct⟩ := BitVec.toNat_eq_nat.mp funct
    simp [opcodeTable, OpcodeRow.selects_iff_fields, opcode, funct, word_eq_iff_fields (w := 0#32), apply_ite]
  case h_23 unlisted =>
    rw [rowsWith_eq_nil, firstSelected_nil]
    simp_all [opcodeTable, ← BitVec.toNat_inj]
  all_goals
    next funct =>
      obtain ⟨-, funct⟩ := BitVec.toNat_eq_nat.mp funct
      simp [opcodeTable, OpcodeRow.selects_iff_fields, opcode, funct, decodeWhen, and_assoc]

/-- List (b): one row for each listed `rt`. -/
theorem decodeRtSelector_eq_firstSelected {w : Word} (opcode : opcodeOf w = 1#6) :
    decodeRtSelector w = firstSelected (rowsWith opcodeOf 1#6 opcodeTable) w := by
  rw [firstSelected_rowsWith rtOf_and rt_masked]
  unfold decodeRtSelector
  split
  case h_5 unlisted =>
    rw [rowsWith_eq_nil, firstSelected_nil]
    simp_all [opcodeTable, ← BitVec.toNat_inj]
  all_goals
    next rt =>
      obtain ⟨-, rt⟩ := BitVec.toNat_eq_nat.mp rt
      simp [opcodeTable, OpcodeRow.selects_iff_fields, opcode, rt]

/-- The opcode map and the table give one decoder. -/
theorem decode_eq_firstSelected (w : Word) : decode w = firstSelected opcodeTable w := by
  rw [firstSelected_rowsWith opcodeOf_and opcode_masked]
  unfold decode
  split
  case h_1 opcode =>
    obtain ⟨-, opcode⟩ := BitVec.toNat_eq_nat.mp opcode
    rw [opcode, decodeFunct_eq_firstSelected opcode]
  case h_2 opcode =>
    obtain ⟨-, opcode⟩ := BitVec.toNat_eq_nat.mp opcode
    rw [opcode, decodeRtSelector_eq_firstSelected opcode]
  case h_21 unlisted =>
    rw [rowsWith_eq_nil, firstSelected_nil]
    simp_all [opcodeTable, ← BitVec.toNat_inj]
  all_goals
    next opcode =>
      obtain ⟨-, opcode⟩ := BitVec.toNat_eq_nat.mp opcode
      simp [opcodeTable, OpcodeRow.selects_iff_fields, opcode, decodeWhen]

/-! ## Overlap of two rows -/

/-- Two matches met by one word agree where both masks look. -/
theorem matches_agree_of_common_word {w m m' v v' : Word} (h : w &&& m = v) (h' : w &&& m' = v') :
    v &&& m' = v' &&& m := by
  rw [← h, ← h', BitVec.and_assoc, BitVec.and_assoc, BitVec.and_comm m]

/-- Any two rows of the table disagree where both masks look, but for NOOP's, which fixes the word to 0. -/
theorem opcodeTable_rows_disagree : opcodeTable.Pairwise fun r r' =>
    r.matchBits &&& r'.maskBits ≠ r'.matchBits &&& r.maskBits ∨
      r.maskBits = BitVec.allOnes 32 ∧ r.matchBits = 0#32 := by
  decide

theorem opcodeTable_overlap_only_at_zero : opcodeTable.Pairwise fun r r' =>
    ∀ w : Word, w &&& r.maskBits = r.matchBits → w &&& r'.maskBits = r'.matchBits → w = 0#32 := by
  refine opcodeTable_rows_disagree.imp fun disagree w h h' => ?_
  obtain conflict | ⟨full, zero⟩ := disagree
  · exact absurd (matches_agree_of_common_word h h') conflict
  · rwa [full, zero, BitVec.and_allOnes] at h

end Sys2Proof

namespace Sys2Proof.Machine

/-- NOOP's word executed as SLL writes register 0, which has no effect (R21, R69). -/
theorem exec_sll_zero (s : State) : exec (.sll 0#5 0#5 0#5) s = exec .noop s := by
  have asWrite : exec (.sll 0#5 0#5 0#5) s = .next (advancePc (writeReg s 0#5 (shiftLeft (readReg s 0#5) 0)) 4) := rfl
  rw [asWrite, writeReg_zero]
  rfl

/-- Settles O3: the opcode map is the search of the table, whose rows disagree two by two but at NOOP's word. -/
theorem decodeIsTheFirstSelectedTableRow : Obligations.DecodeIsTheFirstSelectedTableRow :=
  ⟨decode_eq_firstSelected, opcodeTable_overlap_only_at_zero, exec_sll_zero⟩

end Sys2Proof.Machine
end

section
/-! SUPPORT. Bitwise logic and load upper immediate (spec/41_logical.md R110 to R117): the bits of a widened immediate,
the value of LUI, and the words that the opcode alone decodes to LUI. -/

namespace Sys2Proof.Machine

/-! ## An instruction that ends by writing one register -/

/-- An instruction that ends by writing `v` completes, and its effect has whatever holds of `v`. -/
theorem exec_regEffect_of_finishWrite {i : Instr} {s : State} {r : RegNum} {v : Word} {P : Word → Prop}
    (ends : exec i s = finishWrite s r v) (value : P v) : ∃ t v, exec i s = .next t ∧ RegEffect s t r v ∧ P v := by
  obtain ⟨t, finishes, effect⟩ := finishWrite_effect s r v
  exact ⟨t, v, ends.trans finishes, effect, value⟩

/-! ## The bits of the operands -/

/-- A widened value keeps its own bits; those above are 0 or copies of the top one, by the policy (R4). -/
theorem getLsbD_widen {n k : Nat} (e : Config.Extension) (v : BitVec n) (hk : k < 32) :
    (widen e v).getLsbD k = if k < n then v.getLsbD k else e == .sign && v.getLsbD (n - 1) := by
  cases e with
  | zero =>
    rw [widen, BitVec.getLsbD_setWidth]
    split
    case isTrue => simp [hk]
    case isFalse above => simp [v.getLsbD_of_ge k (Nat.le_of_not_lt above)]
  | sign =>
    rw [widen, BitVec.getLsbD_signExtend, BitVec.msb_eq_getLsbD_last]
    simp [hk]

/-- The immediate of ANDI, ORI and XORI bit by bit (R110). -/
theorem getLsbD_logicalImm {k : Nat} (s : State) (imm : Imm16) (hk : k < 32) :
    (logicalImm s imm).getLsbD k =
      if k < 16 then imm.getLsbD k else s.params.logicalImmExt == .sign && imm.getLsbD 15 :=
  getLsbD_widen s.params.logicalImmExt imm hk

/-- The value of LUI as an exact number (R117). -/
theorem toNat_upperImm (imm : Imm16) : (upperImm imm).toNat = imm.toNat * 2 ^ 16 := by
  have fits : imm.toNat * 2 ^ 16 < 2 ^ 32 := by omega
  rw [upperImm, BitVec.toNat_shiftLeft, BitVec.toNat_setWidth_of_le (by decide), Nat.shiftLeft_eq,
    Nat.mod_eq_of_lt fits]

/-! ## The words of LUI -/

/-- A mask of bits 31:26 leaves exactly the opcode. -/
theorem opcodeOf_of_masked {w m : Word} (h : w &&& 0xFC000000#32 = m) : opcodeOf w = opcodeOf m := by
  rw [← h, opcodeOf_and]
  exact BitVec.and_allOnes.symm

theorem decode_of_opcode_lui {w : Word} (h : opcodeOf w = 0b001111#6) :
    decode w = .ok (.lui (rtOf w) (imm16Of w)) := by
  simp [decode, h]

/-! ## The statements of R110 and R117 -/

/-- Settles O24: each of the six ends by writing one bitwise operation of its operands; an immediate operand is given
bit by bit by `getLsbD_logicalImm`. -/
theorem logicalInstructionsWorkBitByBit : Obligations.LogicalInstructionsWorkBitByBit := by
  intro s rd rs rt imm a b immBit
  refine ⟨exec_regEffect_of_finishWrite rfl fun k _ => BitVec.getLsbD_and,
    exec_regEffect_of_finishWrite rfl fun k _ => BitVec.getLsbD_or,
    exec_regEffect_of_finishWrite rfl fun k _ => BitVec.getLsbD_xor,
    exec_regEffect_of_finishWrite rfl fun k hk => ?andi,
    exec_regEffect_of_finishWrite rfl fun k hk => ?ori,
    exec_regEffect_of_finishWrite rfl fun k hk => ?xori⟩
  case andi => rw [BitVec.getLsbD_and, getLsbD_logicalImm s imm hk]
  case ori => rw [BitVec.getLsbD_or, getLsbD_logicalImm s imm hk]
  case xori => rw [BitVec.getLsbD_xor, getLsbD_logicalImm s imm hk]

/-- Settles O25: LUI ends by writing `upperImm`, and the mask of its row leaves its opcode alone. -/
theorem luiWritesTheUpperHalf : Obligations.LuiWritesTheUpperHalf :=
  ⟨fun _ _ imm => exec_regEffect_of_finishWrite rfl (toNat_upperImm imm),
    fun _ masked => decode_of_opcode_lui (opcodeOf_of_masked masked)⟩

end Sys2Proof.Machine
end

section
/-! SUPPORT. The corners of DIV and DIVU (spec/43_muldiv.md R147): the operands the two tests of Flags.lean pick out,
and the division that the free pair ends there. -/

namespace Sys2Proof.Machine

/-! ## The tests of the corners as words (R147) -/

/-- The corners of DIV by the bits of the operands; the test of R141 reads them as signed. -/
theorem divCornerCase_iff {a b : Word} :
    divCornerCase a b = true ↔ b = 0#32 ∨ (a = 0x80000000#32 ∧ b = 0xFFFFFFFF#32) := by
  have zero : b.toInt = 0 ↔ b = 0#32 := BitVec.toInt_inj (y := 0#32)
  have least : a.toInt = -2 ^ 31 ↔ a = 0x80000000#32 := BitVec.toInt_inj (y := 0x80000000#32)
  have minusOne : b.toInt = -1 ↔ b = 0xFFFFFFFF#32 := BitVec.toInt_inj (y := 0xFFFFFFFF#32)
  rw [divCornerCase, decide_eq_true_iff, zero, least, minusOne]

/-- The corner of DIVU: the test of R142 reads the divisor as unsigned. -/
theorem divuCornerCase_iff {b : Word} : divuCornerCase b = true ↔ b = 0#32 := by
  rw [divuCornerCase, decide_eq_true_iff]
  exact BitVec.toNat_inj (y := 0#32)

/-! ## A division at its corner -/

theorem exec_div_of_corner {s : State} {rs rt : RegNum} (h : divCornerCase (readReg s rs) (readReg s rt) = true) :
    exec (.div rs rt) s = finishDivision s (Config.divCorner .div (readReg s rs) (readReg s rt)) :=
  congrArg (finishDivision s) (if_pos h)

theorem exec_divu_of_corner {s : State} {rs rt : RegNum} (h : divuCornerCase (readReg s rt) = true) :
    exec (.divu rs rt) s = finishDivision s (Config.divCorner .divu (readReg s rs) (readReg s rt)) :=
  congrArg (finishDivision s) (if_pos h)

/-! ## The statement of R147 -/

/-- Settles O33: at a corner each division is `finishDivision` of the free pair, whose effect is
`hiLoEffect_finishDivision`. -/
theorem divisionCornersCompleteWithTheFreePair : Obligations.DivisionCornersCompleteWithTheFreePair := by
  intro s rs rt a b
  refine ⟨fun corner => ?div, fun zeroDivisor => ?divu⟩
  case div =>
    rw [exec_div_of_corner (divCornerCase_iff.mpr corner)]
    exact hiLoEffect_finishDivision s _
  case divu =>
    rw [exec_divu_of_corner (divuCornerCase_iff.mpr zeroDivisor)]
    exact hiLoEffect_finishDivision s _

end Sys2Proof.Machine
end

section
/-! SUPPORT. The no-operation (spec/45_shift.md R161): its meaning as a state, the effect of `advance_pc` alone, and the
word that it shares with `sll $0, $0, 0`. -/

namespace Sys2Proof.Machine

/-! ## The effect of NOOP -/

theorem exec_noop (s : State) : exec .noop s = .next (advancePc s 4) := rfl

/-- `advance_pc(k)` alone is the closing pair of a jump to `npc + k` (R25). -/
theorem jumpEffect_advancePc (s : State) (k : Word) : JumpEffect s (advancePc s k) (s.npc + k) :=
  jumpEffect_jumpTo s (s.npc + k)

/-! ## The word of NOOP (R65, R69) -/

theorem decode_zero : decode 0#32 = .ok .noop := by decide

theorem encode_noop : encode .noop = 0#32 := rfl

theorem encode_sll_zero : encode (.sll 0#5 0#5 0#5) = 0#32 := by decide

/-! ## The statement of R161 -/

/-- Settles O45: NOOP is `advance_pc(4)` alone, and the SLL of its word writes only register 0 (`exec_sll_zero`). -/
theorem noopOnlyAdvancesThePc : Obligations.NoopOnlyAdvancesThePc := by
  refine ⟨fun s => ⟨⟨advancePc s 4, exec_noop s, ?effect⟩, exec_sll_zero s⟩, decode_zero, encode_noop, encode_sll_zero⟩
  case effect => exact jumpEffect_advancePc s 4

end Sys2Proof.Machine
end

section
/-! SUPPORT. Set on less than (spec/46_compare.md R170 to R174): the two readings of a sign-extended immediate, and the
word a comparison writes. -/

namespace Sys2Proof.Machine

/-! ## The readings of a sign-extended immediate (R170) -/

/-- Sign extension keeps the signed reading. -/
theorem toInt_signImm (imm : Imm16) : (signImm imm).toInt = imm.toInt :=
  BitVec.toInt_signExtend_of_le (by decide)

/-- The unsigned reading is the signed one modulo `2^32`: a negative immediate reads as a large number. -/
theorem toNat_signImm (imm : Imm16) : ((signImm imm).toNat : Int) = imm.toInt % 2 ^ 32 := by
  have modulus : (2 ^ 32 : Int) ≠ 0 := by decide
  rw [signImm, BitVec.signExtend, BitVec.toNat_ofInt]
  exact Int.toNat_of_nonneg (Int.emod_nonneg _ modulus)

/-! ## The word a comparison writes (R170) -/

/-- An instruction that ends by writing the word of a test completes and writes 1 or 0, as the condition holds. -/
theorem exec_regEffect_of_boolWord {i : Instr} {s : State} {r : RegNum} {test : Bool} {c : Prop} [Decidable c]
    (ends : exec i s = finishWrite s r (boolWord test)) (condition : test = true ↔ c) :
    ∃ t, exec i s = .next t ∧ RegEffect s t r (if c then 1#32 else 0#32) := by
  have written : boolWord test = if c then 1#32 else 0#32 := if_congr condition rfl rfl
  rw [ends, written]
  exact finishWrite_effect s r _

theorem lessSigned_iff {a b : Word} : lessSigned a b = true ↔ a.toInt < b.toInt := decide_eq_true_iff

theorem lessUnsigned_iff {a b : Word} : lessUnsigned a b = true ↔ a.toNat < b.toNat := decide_eq_true_iff

theorem lessSigned_signImm_iff {a : Word} {imm : Imm16} : lessSigned a (signImm imm) = true ↔ a.toInt < imm.toInt := by
  rw [lessSigned_iff, toInt_signImm]

theorem lessUnsigned_signImm_iff {a : Word} {imm : Imm16} :
    lessUnsigned a (signImm imm) = true ↔ (a.toNat : Int) < imm.toInt % 2 ^ 32 := by
  rw [lessUnsigned_iff, ← toNat_signImm, Int.ofNat_lt]

/-! ## The statement of R170 -/

/-- Settles O48: each of the four ends by writing the word of its test, whose condition is read off the registers or
the sign-extended immediate. -/
theorem comparisonsWriteOneOrZero : Obligations.ComparisonsWriteOneOrZero := by
  intro s rd rs rt imm a b
  refine ⟨?slt, ?sltu, ?slti, ?sltiu⟩
  case slt => exact exec_regEffect_of_boolWord rfl lessSigned_iff
  case sltu => exact exec_regEffect_of_boolWord rfl lessUnsigned_iff
  case slti => exact exec_regEffect_of_boolWord rfl lessSigned_signImm_iff
  case sltiu => exact exec_regEffect_of_boolWord rfl lessUnsigned_signImm_iff

end Sys2Proof.Machine
end

section
/-! SUPPORT. Taking an exception (spec/60_exceptions.md R200, R204): an instruction that leaves a new fault record has
done nothing else, no meaning depends on the record it starts with, and the overflow record comes from the checked
endings of ADD, ADDI and SUB alone. -/

namespace Sys2Proof.Machine

/-! ## An exception is precise (R204) -/

/-- An instruction that leaves a fault record where there was none has written the record and nothing else. -/
theorem exec_eq_raise {i : Instr} {s t : State} {r : FaultRecord} (running : s.fault = none)
    (h : exec i s = .next t) (raised : t.fault = some r) : t = { s with fault := some r } := by
  rcases exec_endsWithPc i s t h with ⟨-, -, kept⟩ | ⟨r', rfl⟩
  · simp [kept, running] at raised
  · rw [← raised]

/-- A step that ends with a fault record has written the record and nothing else. -/
theorem step_eq_raise {s t : State} {r : FaultRecord} (h : step s = .next t) (raised : t.fault = some r) :
    t = { s with fault := some r } := by
  rcases step_next.mp h with ⟨i, found, executed⟩ | ⟨r', -, rfl⟩
  · exact exec_eq_raise (running_of_executes found).1 executed raised
  · rw [← raised]

/-- No instruction clears a fault record. -/
theorem exec_keeps_fault {i : Instr} {s t : State} (h : exec i s = .next t) (hs : s.fault ≠ none) :
    t.fault ≠ none := by
  rcases exec_endsWithPc i s t h with ⟨-, -, kept⟩ | ⟨r, rfl⟩
  · exact kept ▸ hs
  · exact Option.some_ne_none r

/-! ## No instruction reads the fault record (R204) -/

/-- A result with the fault record of its next state forgotten. -/
def forgetFault : Result → Result
  | .next t => .next { t with fault := none }
  | .fault r => .fault r
  | .refused r => .refused r

/-- A result that agrees with a next state but for the fault record is such a next state. -/
theorem next_of_forgetFault_eq {res : Result} {t : State} (h : forgetFault res = forgetFault (.next t)) :
    ∃ t', res = .next t' ∧ { t' with fault := none } = { t with fault := none } := by
  cases res with
  | next t' => exact ⟨t', rfl, Host.Outcome.next.inj h⟩
  | fault r => cases h
  | refused r => cases h

theorem writeReg_withFault (s : State) (f : Option FaultRecord) (i : RegNum) (v : Word) :
    writeReg { s with fault := f } i v = { writeReg s i v with fault := f } := by
  unfold writeReg; split <;> rfl

theorem branchLink_withFault (s : State) (f : Option FaultRecord) (taken : Bool) :
    branchLink { s with fault := f } taken = { branchLink s taken with fault := f } := by
  unfold branchLink; split
  · exact writeReg_withFault s f linkReg (linkValue s)
  · rfl

theorem forgetFault_finishWrite (s : State) (f : Option FaultRecord) (i : RegNum) (v : Word) :
    forgetFault (finishWrite { s with fault := f } i v) = forgetFault (finishWrite s i v) := by
  rw [finishWrite, writeReg_withFault]; rfl

theorem forgetFault_branchLink (s : State) (f : Option FaultRecord) (taken : Bool) (offset : Imm16) :
    forgetFault (.next (branch (branchLink { s with fault := f } taken) taken offset)) =
      forgetFault (.next (branch (branchLink s taken) taken offset)) := by
  rw [branchLink_withFault]; rfl

/-- The closing pair of JAL after its link. -/
theorem forgetFault_jumpLink (s : State) (f : Option FaultRecord) (target : Word) :
    forgetFault (.next (jumpTo (writeReg { s with fault := f } linkReg (linkValue s)) target)) =
      forgetFault (.next (jumpTo (writeReg s linkReg (linkValue s)) target)) := by
  rw [writeReg_withFault]; rfl

/-- A check that raises before the ending raises from either record. -/
theorem forgetFault_raiseIf {s : State} {f : Option FaultRecord} {res res' : Result}
    (h : forgetFault res = forgetFault res') (c : Bool) (r : FaultRecord) :
    forgetFault (if c then raise r { s with fault := f } else res) =
      forgetFault (if c then raise r s else res') := by
  cases c
  · exact h
  · rfl

theorem forgetFault_finishLoad {α : Type} (s : State) (f : Option FaultRecord) (rt : RegNum) (widen : α → Word)
    (r : ReadResult α) :
    forgetFault (finishLoad { s with fault := f } rt widen r) = forgetFault (finishLoad s rt widen r) := by
  cases r with
  | value v => exact forgetFault_finishWrite s f rt (widen v)
  | raises | unspecified => rfl

theorem forgetFault_writeByte (s : State) (f : Option FaultRecord) (addr v : Word) :
    forgetFault (finishStore { s with fault := f } (writeByte { s with fault := f } addr v)) =
      forgetFault (finishStore s (writeByte s addr v)) := by
  simp only [writeByte]
  split <;> rfl

theorem forgetFault_writeWord (s : State) (f : Option FaultRecord) (addr v : Word) :
    forgetFault (finishStore { s with fault := f } (writeWord { s with fault := f } addr v)) =
      forgetFault (finishStore s (writeWord s addr v)) := by
  simp only [writeWord]
  split
  · split <;> rfl
  · rfl

/-- What the environment receives holds no fault record (R181). -/
theorem forgetFault_environmentCall (s : State) (f : Option FaultRecord) (w : Word) :
    forgetFault (.next (environmentCall w { s with fault := f })) = forgetFault (.next (environmentCall w s)) := by
  have answer : envAnswer w { s with fault := f } = envAnswer w s := rfl
  simp only [environmentCall, answer]
  cases envAnswer w s <;> rfl

/-- Every meaning does the same from any fault record, but for the record itself. -/
theorem forgetFault_exec (i : Instr) (s : State) (f : Option FaultRecord) :
    forgetFault (exec i { s with fault := f }) = forgetFault (exec i s) := by
  cases i with
  | add | addi | sub => exact forgetFault_raiseIf (forgetFault_finishWrite s f _ _) _ _
  | addiu | addu | subu | and | andi | or | ori | xor | xori | lui | mfhi | mflo
  | sll | sllv | sra | srl | srlv | slt | slti | sltiu | sltu => exact forgetFault_finishWrite s f _ _
  | beq | bgez | bgtz | blez | bltz | bne | j | jr | noop | mult | multu | div | divu => rfl
  | bgezal | bltzal => exact forgetFault_branchLink s f _ _
  | jal => exact forgetFault_jumpLink s f _
  | lb | lw => exact forgetFault_finishLoad s f _ _ _
  | sb => exact forgetFault_writeByte s f _ _
  | sw => exact forgetFault_writeWord s f _ _
  | syscall => exact forgetFault_environmentCall (advancePc s 4) f _

/-! ## Where the overflow record comes from (R200) -/

/-- The result is a next state with the overflow record. -/
def RaisesOverflow (res : Result) : Prop := ∃ t, res = .next t ∧ t.fault = some .integerOverflow

theorem overflows_iff {exact : Int} : overflows exact = true ↔ OutOfRange exact := decide_eq_true_iff

section
variable {s : State} (running : s.fault = none)
include running

/-- An ending that keeps the record of a running state is no overflow. -/
theorem not_raisesOverflow_next {t : State} (kept : t.fault = s.fault) : ¬RaisesOverflow (.next t) := by
  rintro ⟨u, ⟨⟩, raised⟩
  simp [kept, running] at raised

theorem not_raisesOverflow_finishWrite (i : RegNum) (v : Word) : ¬RaisesOverflow (finishWrite s i v) :=
  not_raisesOverflow_next running (by simp)

/-- The checked ending of ADD, ADDI and SUB raises overflow exactly where its check says so. -/
theorem raisesOverflow_checked_iff (c : Bool) (i : RegNum) (v : Word) :
    RaisesOverflow (if c then raise .integerOverflow s else finishWrite s i v) ↔ c = true := by
  cases c
  · simpa using not_raisesOverflow_finishWrite running i v
  · exact iff_of_true ⟨_, rfl, rfl⟩ rfl

theorem not_raisesOverflow_finishLoad {α : Type} {rt : RegNum} {widen : α → Word} {r : ReadResult α}
    (other : r ≠ .raises .integerOverflow) : ¬RaisesOverflow (finishLoad s rt widen r) := by
  rintro ⟨t, h, raised⟩
  rcases finishLoad_next.mp h with ⟨v, -, rfl⟩ | ⟨f, rfl, rfl⟩
  · simp [running] at raised
  · exact other (congrArg ReadResult.raises (Option.some.inj raised))

theorem not_raisesOverflow_finishStore {res : Except FaultRecord State} (kept : ∀ u, res = .ok u → u.fault = s.fault)
    (other : res ≠ .error .integerOverflow) : ¬RaisesOverflow (finishStore s res) := by
  rintro ⟨t, h, raised⟩
  rcases finishStore_next.mp h with ⟨u, hu, rfl⟩ | ⟨f, rfl, rfl⟩
  · simp [kept u hu, running] at raised
  · exact other (congrArg Except.error (Option.some.inj raised))

end

/-! An access to memory raises only the records of its own table rows (R43, R44, R207), none of them the overflow. -/

theorem readByte_ne_overflow (s : State) (addr : Word) : readByte s addr ≠ .raises .integerOverflow := by
  simp [Ne, readByte_raises]

theorem readWord_ne_overflow (s : State) (addr : Word) : readWord s addr ≠ .raises .integerOverflow := by
  simp [Ne, readWord_raises]

theorem writeByte_ne_overflow (s : State) (addr v : Word) : writeByte s addr v ≠ .error .integerOverflow := by
  simp [Ne, writeByte_error, writeFault_some]

theorem writeWord_ne_overflow (s : State) (addr v : Word) : writeWord s addr v ≠ .error .integerOverflow := by
  simp [Ne, writeWord_error, writeFault_some]

/-- The instruction is ADD, ADDI or SUB and its exact result is out of range (R100). -/
def SignedOverflow (s : State) : Instr → Prop
  | .add _ rs rt => OutOfRange ((readReg s rs).toInt + (readReg s rt).toInt)
  | .addi _ rs imm => OutOfRange ((readReg s rs).toInt + imm.toInt)
  | .sub _ rs rt => OutOfRange ((readReg s rs).toInt - (readReg s rt).toInt)
  | _ => False

theorem signedOverflow_iff {s : State} {i : Instr} : SignedOverflow s i ↔
    (∃ rd rs rt, i = .add rd rs rt ∧ OutOfRange ((readReg s rs).toInt + (readReg s rt).toInt)) ∨
    (∃ rt rs imm, i = .addi rt rs imm ∧ OutOfRange ((readReg s rs).toInt + imm.toInt)) ∨
    (∃ rd rs rt, i = .sub rd rs rt ∧ OutOfRange ((readReg s rs).toInt - (readReg s rt).toInt)) := by
  cases i <;> simp [SignedOverflow]

/-- From a running state, an instruction raises overflow exactly on signed overflow of ADD, ADDI or SUB. -/
theorem exec_raisesOverflow_iff {s : State} (running : s.fault = none) (i : Instr) :
    RaisesOverflow (exec i s) ↔ SignedOverflow s i := by
  cases i with
  | add rd rs rt | sub rd rs rt => exact (raisesOverflow_checked_iff running _ _ _).trans overflows_iff
  | addi rt rs imm =>
    refine (raisesOverflow_checked_iff running _ _ _).trans ?_
    rw [addOverflows, toInt_signImm]
    exact overflows_iff
  | addiu | addu | subu | and | andi | or | ori | xor | xori | lui | mfhi | mflo
  | sll | sllv | sra | srl | srlv | slt | slti | sltiu | sltu =>
    exact iff_false_intro (not_raisesOverflow_finishWrite running _ _)
  | beq | bgez | bgtz | blez | bltz | bne | j | jr | noop | mult | multu | div | divu =>
    exact iff_false_intro (not_raisesOverflow_next running rfl)
  | bgezal | bltzal => exact iff_false_intro (not_raisesOverflow_next running (branchLink_fault s _))
  | jal => exact iff_false_intro (not_raisesOverflow_next running (writeReg_fault s _ _))
  | syscall => exact iff_false_intro (not_raisesOverflow_next running (environmentCall_fault _ _))
  | lb => exact iff_false_intro (not_raisesOverflow_finishLoad running (readByte_ne_overflow s _))
  | lw => exact iff_false_intro (not_raisesOverflow_finishLoad running (readWord_ne_overflow s _))
  | sb =>
    refine iff_false_intro (not_raisesOverflow_finishStore running (fun u hu => ?_) (writeByte_ne_overflow s _ _))
    obtain ⟨-, rfl⟩ := writeByte_ok.mp hu
    rfl
  | sw =>
    refine iff_false_intro (not_raisesOverflow_finishStore running (fun u hu => ?_) (writeWord_ne_overflow s _ _))
    obtain ⟨-, -, rfl⟩ := writeWord_ok.mp hu
    rfl

/-! ## The statements of R200 and R204 -/

/-- Settles O7: preciseness and no clearing from what an instruction can end with (`exec_endsWithPc`), no reading from
`forgetFault_exec`. -/
theorem faultsArePreciseAndTerminal : Obligations.FaultsArePreciseAndTerminal := by
  refine ⟨fun s t r => step_eq_raise, fun s r => step_of_fault, fun i s t => exec_keeps_fault,
    fun i s t f executed => ?unread, fun p entry init => rfl⟩
  case unread => exact next_of_forgetFault_eq (executed ▸ forgetFault_exec i s f)

/-- Settles O22: the equivalence is `exec_raisesOverflow_iff`, the raise is precise and then terminal. -/
theorem overflowIsRaisedByAddAddiSubAlone : Obligations.OverflowIsRaisedByAddAddiSubAlone := by
  intro i s running
  refine ⟨(exec_raisesOverflow_iff running i).trans signedOverflow_iff, fun t executed raised => ?_⟩
  exact ⟨exec_eq_raise running executed raised, step_of_fault raised⟩

end Sys2Proof.Machine
end

section
/-! SUPPORT. The encoder against the decoder (spec/30_encoding.md R68, R69, R76). An encoded word has the fields of its row
and its operands, so the opcode map reads them back; a decoded word selects a row of the table, and the encoder puts
back the match and the operands of that row, which are all its bits but the ignored ones. -/

namespace Sys2Proof

/-! ## Decoding an encoding (R76) -/

@[simp] theorem imm16Of_ofNat (n : Nat) : imm16Of (BitVec.ofNat 32 n) = (BitVec.ofNat 32 n).extractLsb' 0 16 := rfl
@[simp] theorem target26Of_ofNat (n : Nat) :
    target26Of (BitVec.ofNat 32 n) = (BitVec.ofNat 32 n).extractLsb' 0 26 := rfl

/-- The word of SLL is NOOP's only where all three operands are 0 (R69). -/
theorem encode_sll_eq_zero_iff {rd rt : RegNum} {shamt : Shamt} :
    encode (.sll rd rt shamt) = 0#32 ↔ rd = 0#5 ∧ rt = 0#5 ∧ shamt = 0#5 := by
  simp only [encode, word_eq_iff_fields (w := 0#32)]
  simp [and_left_comm]

/-- The ill-formed terms are the SLL that shares its word with NOOP, and a SYSCALL that keeps ignored bits. -/
theorem wellFormed_eq_false_iff (i : Instr) :
    i.wellFormed = false ↔ i = .sll 0#5 0#5 0#5 ∨ ∃ code, code ≠ 0#20 ∧ i = .syscall code := by
  cases i with
  | sll rd rt shamt => simp [Instr.wellFormed, and_assoc]
  | syscall code => simp [Instr.wellFormed]
  | _ => simp [Instr.wellFormed]

/-- The opcode map reads back the fields that the encoder wrote; SLL's operands keep its word from being NOOP's. -/
theorem decode_encode {i : Instr} (h : i.wellFormed = true) : decode (encode i) = .ok i := by
  cases i with
  | sll rd rt shamt =>
    have not_noop : encode (.sll rd rt shamt) ≠ 0#32 := by
      rw [Ne, encode_sll_eq_zero_iff]
      rintro ⟨rfl, rfl, rfl⟩
      cases h
    simp_all [encode, decode, decodeFunct]
  | syscall code =>
    obtain rfl : code = 0#20 := beq_iff_eq.mp h
    rfl
  | _ => simp [encode, decode, decodeFunct, decodeRtSelector, decodeWhen]

/-! ## A field put back where it was cut from leaves the bits of the field (R61) -/

theorem atRs_rsOf (w : Word) : atRs (rsOf w) = w &&& 0x03E00000#32 :=
  ((select_field w 21 5 _ (by decide)).mpr rfl).symm

theorem atRt_rtOf (w : Word) : atRt (rtOf w) = w &&& 0x001F0000#32 :=
  ((select_field w 16 5 _ (by decide)).mpr rfl).symm

theorem atRd_rdOf (w : Word) : atRd (rdOf w) = w &&& 0x0000F800#32 :=
  ((select_field w 11 5 _ (by decide)).mpr rfl).symm

theorem atShamt_shamtOf (w : Word) : atShamt (shamtOf w) = w &&& 0x000007C0#32 :=
  ((select_field w 6 5 _ (by decide)).mpr rfl).symm

theorem atImm16_imm16Of (w : Word) : atImm16 (imm16Of w) = w &&& 0x0000FFFF#32 := by
  simpa [atImm16, imm16Of] using ((select_field w 0 16 _ (by decide)).mpr rfl).symm

theorem atTarget26_target26Of (w : Word) : atTarget26 (target26Of w) = w &&& 0x03FFFFFF#32 := by
  simpa [atTarget26, target26Of] using ((select_field w 0 26 _ (by decide)).mpr rfl).symm

/-! ## Encoding a decoded word, row by row (R76) -/

/-- A decoded word selects a row of the table and has the operands of that row (R69). -/
theorem row_of_decode {w : Word} {i : Instr} (h : decode w = .ok i) :
    ∃ r ∈ opcodeTable, w &&& r.maskBits = r.matchBits ∧ i = r.build w := by
  rw [decode_eq_firstSelected, firstSelected] at h
  split at h
  case h_1 row found =>
    have selected : row.selects w = true := List.find?_some (p := fun r => OpcodeRow.selects r w) found
    exact ⟨row, List.mem_of_find?_eq_some found, OpcodeRow.selects_iff.mp selected, (Except.ok.inj h).symm⟩
  case h_2 => cases h

/-- The encoder gives back every word that selects the row, with the ignored positions written as 0. -/
def OpcodeRow.EncodesBack (r : OpcodeRow) : Prop :=
  ∀ w : Word, w &&& r.maskBits = r.matchBits → encode (r.build w) = w &&& ~~~ignoredBits (r.build w)

/-- The match of a row and its operands are all the bits of a selecting word that the mask or an operand covers. -/
theorem match_or_operands {w m mask operands kept : Word} (selected : w &&& mask = m)
    (covered : mask ||| operands = kept) : m ||| w &&& operands = w &&& kept := by
  rw [← selected, ← BitVec.and_or_distrib_left, covered]

/-! The rows of NOOP and SYSCALL have no operand: the match is the whole encoding. -/

theorem encodesBack_noop : OpcodeRow.EncodesBack ⟨0x00000000, 0xFFFFFFFF, fun _ => .noop⟩ := by
  intro w selected
  have kept : 0xFFFFFFFF#32 = ~~~0#32 := by decide
  exact selected.symm.trans (congrArg (w &&& ·) kept)

theorem encodesBack_syscall : OpcodeRow.EncodesBack ⟨0x0000000C, 0xFC00003F, fun w => .syscall (syscallCodeOf w)⟩ := by
  intro w selected
  have kept : 0xFC00003F#32 = ~~~0x03FFFFC0#32 := by decide
  exact selected.symm.trans (congrArg (w &&& ·) kept)

/-- The encoding of every other row is its match or-ed with the operands, each the bits of its field. -/
theorem opcodeTable_encodesBack : ∀ r ∈ opcodeTable, r.EncodesBack := by
  refine List.forall_mem_append.mpr ⟨?_, ?_⟩ <;>
    simp only [List.forall_mem_cons, encodesBack_noop, encodesBack_syscall, true_and, List.not_mem_nil, false_imp_iff,
      implies_true, and_true] <;>
    and_intros
  all_goals
    intro w selected
    simp only [encode, ignoredBits, atRs_rsOf, atRt_rtOf, atRd_rdOf, atShamt_shamtOf, atImm16_imm16Of,
      atTarget26_target26Of, BitVec.or_assoc, ← BitVec.and_or_distrib_left]
    exact match_or_operands selected (by decide)

/-! ## The statements of R65 and R76 -/

/-- Settles O1: `decode_encode` for the well-formed terms; the others are SLL with NOOP's word and the SYSCALL terms,
whose encoding does not depend on the bits they keep. -/
theorem decodeOfEncodeReturnsTheInstruction : Obligations.DecodeOfEncodeReturnsTheInstruction := by
  refine ⟨fun i => decode_encode, wellFormed_eq_false_iff, rfl, fun code => ?syscall⟩
  case syscall => exact decode_encode (i := .syscall 0#20) rfl

/-- Settles O2: the word selects a row, and every row of the table encodes back. -/
theorem encodeOfDecodeClearsOnlyIgnoredBits : Obligations.EncodeOfDecodeClearsOnlyIgnoredBits := by
  intro w i decoded
  obtain ⟨r, mem, selected, rfl⟩ := row_of_decode decoded
  exact opcodeTable_encodesBack r mem w selected

/-- Settles O4: the decoder run on each word written out. -/
theorem writtenOutWordsDecode : Obligations.WrittenOutWordsDecode := by
  unfold Obligations.WrittenOutWordsDecode
  decide

end Sys2Proof
end

section
/-! SUPPORT. What an instruction can write (spec/10_state.md R21, R23, R30), said once over all 45: a fault record, or one of
six effects on registers and memory, and then the program counters. The frames of the whole machine, the parameters
(R20) and the state invariant are read off this one case split. -/

namespace Sys2Proof.Machine

/-! ## The effects an instruction can have -/

/-- The instructions that write HI and LO from their operands (R23). -/
def writesHiLo : Instr → Bool
  | .div _ _ | .divu _ _ | .mult _ _ | .multu _ _ => true
  | _ => false

/-- `DataEffect i s u`: `u` is `s` with the registers and the memory as an `i` that does not raise leaves them. The
program counters of `u` count for nothing. -/
inductive DataEffect (i : Instr) (s : State) : State → Prop where
  | unchanged : DataEffect i s s
  | register {d : RegNum} (destination : d ∈ destinations i) (v : Word) : DataEffect i s (writeReg s d v)
  | hiLo (writes : writesHiLo i = true) (h l : Word) (n : Nat) :
      DataEffect i s { s with hi := h, lo := l, draws := n }
  | storedByte {rt rs : RegNum} {offset : Imm16} {addr : Word} (store : i = .sb rt offset rs)
      (allowed : writeFault s.params .byte addr = none) (b : Byte) :
      DataEffect i s { s with mem := memSet s.mem addr.toNat b }
  | storedWord {rt rs : RegNum} {offset : Imm16} {addr : Word} (store : i = .sw rt offset rs)
      (inPlace : aligned addr = true) (allowed : writeFault s.params .word addr = none) (v : Word) :
      DataEffect i s { s with mem := memSetWord s.params.byteOrder s.mem addr v }
  | environment {code : SyscallCode} (call : i = .syscall code) :
      DataEffect i s (environmentCall (syscallWord code) (advancePc s 4))

/-- A result of `i` from `s` is a fault record and nothing else, or a data effect and new program counters. -/
def EndsWithEffect (i : Instr) (s : State) (res : Result) : Prop :=
  ∀ t, res = .next t →
    (∃ r, t = { s with fault := some r }) ∨ ∃ u, DataEffect i s u ∧ t = { u with pc := t.pc, npc := t.npc }

section
variable {i : Instr} {s : State}

theorem endsWithEffect_next {u t : State} (effect : DataEffect i s u) (h : t = { u with pc := t.pc, npc := t.npc }) :
    EndsWithEffect i s (.next t) := by
  rintro _ ⟨⟩
  exact .inr ⟨u, effect, h⟩

theorem endsWithEffect_raise (r : FaultRecord) : EndsWithEffect i s (raise r s) :=
  fun _ h => .inl ⟨r, raise_next.mp h⟩

theorem EndsWithEffect.raiseIf {res : Result} (h : EndsWithEffect i s res) (c : Bool) (r : FaultRecord) :
    EndsWithEffect i s (if c then raise r s else res) := by
  cases c
  · exact h
  · exact endsWithEffect_raise r

theorem endsWithEffect_finishWrite {d : RegNum} (destination : d ∈ destinations i) (v : Word) :
    EndsWithEffect i s (finishWrite s d v) :=
  endsWithEffect_next (.register destination v) rfl

theorem endsWithEffect_finishLoad {α : Type} {d : RegNum} (destination : d ∈ destinations i) (widen : α → Word)
    (r : ReadResult α) : EndsWithEffect i s (finishLoad s d widen r) := by
  intro t h
  rcases finishLoad_next.mp h with ⟨v, -, rfl⟩ | ⟨f, -, rfl⟩
  · exact .inr ⟨_, .register destination (widen v), rfl⟩
  · exact .inl ⟨f, rfl⟩

theorem endsWithEffect_finishStore {res : Except FaultRecord State} (stored : ∀ u, res = .ok u → DataEffect i s u) :
    EndsWithEffect i s (finishStore s res) := by
  intro t h
  rcases finishStore_next.mp h with ⟨u, hu, rfl⟩ | ⟨f, -, rfl⟩
  · exact .inr ⟨u, stored u hu, rfl⟩
  · exact .inl ⟨f, rfl⟩

/-- The link of BGEZAL and BLTZAL writes its destination, register 31, or nothing. -/
theorem dataEffect_branchLink (links : linkReg ∈ destinations i) (taken : Bool) :
    DataEffect i s (branchLink s taken) := by
  unfold branchLink
  split
  · exact .register links _
  · exact .unchanged

end

/-- Every instruction ends with one of the effects. -/
theorem exec_endsWithEffect (i : Instr) (s : State) : EndsWithEffect i s (exec i s) := by
  cases i with
  | add | addi | sub => exact (endsWithEffect_finishWrite (.head _) _).raiseIf _ _
  | addiu | addu | subu | and | andi | or | ori | xor | xori | lui | mfhi | mflo
  | sll | sllv | sra | srl | srlv | slt | slti | sltiu | sltu => exact endsWithEffect_finishWrite (.head _) _
  | beq | bgez | bgtz | blez | bltz | bne | j | jr | noop => exact endsWithEffect_next .unchanged rfl
  | bgezal | bltzal => exact endsWithEffect_next (dataEffect_branchLink (.head _) _) rfl
  | jal => exact endsWithEffect_next (.register (.head _) (linkValue s)) rfl
  | mult | multu | div | divu => exact endsWithEffect_next (.hiLo rfl _ _ _) rfl
  | lb | lw => exact endsWithEffect_finishLoad (.head _) _ _
  | sb =>
    refine endsWithEffect_finishStore fun u hu => ?_
    obtain ⟨allowed, rfl⟩ := writeByte_ok.mp hu
    exact .storedByte rfl allowed _
  | sw =>
    refine endsWithEffect_finishStore fun u hu => ?_
    obtain ⟨inPlace, allowed, rfl⟩ := writeWord_ok.mp hu
    exact .storedWord rfl inPlace allowed _
  | syscall => exact endsWithEffect_next (.environment rfl) rfl

/-! ## What every effect keeps -/

/-- The environment's memory is brought into canonical form (log 19). -/
theorem environmentCall_mem_wf (w : Word) {s : State} (h : s.mem.wf = true) : (environmentCall w s).mem.wf = true := by
  rcases environmentCall_cases w s with ⟨-, halts⟩ | ⟨x, hi, lo, mem, -, resumes⟩
  · rw [halts]; exact h
  · rw [resumes]; exact memOfCells_wf mem

/-- The environment's `x[0]` is replaced by 0 (R181). -/
theorem environmentCall_x_zero (w : Word) {s : State} (h : s.x[0] = 0#32) : (environmentCall w s).x[0] = 0#32 := by
  rcases environmentCall_cases w s with ⟨-, halts⟩ | ⟨x, hi, lo, mem, -, resumes⟩
  · simpa [halts] using h
  · simp [resumes]

section
variable {i : Instr} {s u : State} (effect : DataEffect i s u)
include effect

theorem DataEffect.params_eq : u.params = s.params := by
  cases effect <;> simp

theorem DataEffect.fault_eq : u.fault = s.fault := by
  cases effect <;> simp

/-- Only the environment's `halt` ends a run, and the word kept is the SYSCALL's own (R182). -/
theorem DataEffect.halted_cases :
    u.halted = s.halted ∨ ∃ code, i = .syscall code ∧ u.halted = some (syscallWord code) ∧
      envAnswer (syscallWord code) (advancePc s 4) = .halt := by
  cases effect with
  | unchanged | hiLo | storedByte | storedWord => exact .inl rfl
  | register => exact .inl (writeReg_halted s _ _)
  | environment call =>
    rcases environmentCall_cases _ (advancePc s 4) with ⟨halts, eq⟩ | ⟨x, hi, lo, mem, -, eq⟩
    · exact .inr ⟨_, call, by rw [eq], halts⟩
    · exact .inl (by rw [eq]; rfl)

/-- The effect on the memory: none, a store, or the environment's. -/
theorem DataEffect.mem_eq (sb : ∀ rt offset rs, i ≠ .sb rt offset rs) (sw : ∀ rt offset rs, i ≠ .sw rt offset rs)
    (syscall : ∀ c, i ≠ .syscall c) : u.mem = s.mem := by
  cases effect with
  | unchanged | hiLo => rfl
  | register => exact writeReg_mem s _ _
  | storedByte store => exact absurd store (sb _ _ _)
  | storedWord store => exact absurd store (sw _ _ _)
  | environment call => exact absurd call (syscall _)

theorem DataEffect.sameHiLo (other : writesHiLo i = false) (syscall : ∀ c, i ≠ .syscall c) : SameHiLo s u := by
  cases effect with
  | unchanged | storedByte | storedWord => exact ⟨rfl, rfl⟩
  | register => exact ⟨writeReg_hi s _ _, writeReg_lo s _ _⟩
  | hiLo writes => simp [other] at writes
  | environment call => exact absurd call (syscall _)

theorem DataEffect.readReg_eq (syscall : ∀ c, i ≠ .syscall c) {r : RegNum} (other : r ∉ destinations i) :
    readReg u r = readReg s r := by
  cases effect with
  | unchanged | hiLo | storedByte | storedWord => rfl
  | register destination =>
    refine readReg_writeReg_ne s ?_ _
    rintro rfl
    exact other destination
  | environment call => exact absurd call (syscall _)

/-- Stores and the environment keep memory in its canonical form. -/
theorem DataEffect.mem_wf (h : s.mem.wf = true) : u.mem.wf = true := by
  cases effect with
  | unchanged | hiLo => exact h
  | register => rwa [writeReg_mem]
  | storedByte => exact memSet_wf h (BitVec.isLt _) _
  | storedWord _ inPlace => exact memSetWord_wf h _ inPlace _
  | environment => exact environmentCall_mem_wf _ h

/-- No effect stores into register 0 (R21). -/
theorem DataEffect.x_zero (h : s.x[0] = 0#32) : u.x[0] = 0#32 := by
  cases effect with
  | unchanged | hiLo | storedByte | storedWord => exact h
  | register => rwa [writeReg_x_zero]
  | environment => exact environmentCall_x_zero _ h

end

/-! ## A step by its effect -/

/-- A step raises and writes nothing else, or has the effect of the instruction it executes. -/
theorem step_cases {s t : State} (h : step s = .next t) :
    (∃ r, t = { s with fault := some r }) ∨
      ∃ i u, pending s = .executes i ∧ DataEffect i s u ∧ t = { u with pc := t.pc, npc := t.npc } := by
  rcases step_next.mp h with ⟨i, found, executed⟩ | ⟨r, -, raised⟩
  · rcases exec_endsWithEffect i s t executed with raised | ⟨u, effect, ht⟩
    · exact .inl raised
    · exact .inr ⟨i, u, found, effect, ht⟩
  · exact .inl ⟨r, raised⟩

/-- No step writes the parameters (R20, log 7). -/
theorem step_params {s t : State} (h : step s = .next t) : t.params = s.params := by
  rcases step_cases h with ⟨r, rfl⟩ | ⟨i, u, -, effect, ht⟩
  · rfl
  · rw [ht]; exact effect.params_eq

/-- Every step keeps the invariant. The run has not ended in two ways, since an instruction that ends it with a halt
leaves the record of a running state empty. -/
theorem step_inv {s t : State} (inv : Inv s) (h : step s = .next t) : Inv t := by
  obtain ⟨noFault, notHalted⟩ := running_of_step_next h
  rcases step_cases h with ⟨r, rfl⟩ | ⟨i, u, -, effect, ht⟩
  · exact ⟨inv.memCanonical, inv.registerZero, .inr notHalted⟩
  · rw [ht]
    exact ⟨effect.mem_wf inv.memCanonical, effect.x_zero inv.registerZero, .inl (effect.fault_eq.trans noFault)⟩

/-! ## The frames of the whole machine -/

/-- A frame of every effect that neither the fault record nor the program counters enter holds after `exec`. -/
theorem exec_frame {i : Instr} {s t : State} {P : State → Prop} (h : exec i s = .next t) (start : P s)
    (effects : ∀ u, DataEffect i s u → P u) (fault : ∀ v r, P v → P { v with fault := some r })
    (counters : ∀ v pc npc, P v → P { v with pc := pc, npc := npc }) : P t := by
  rcases exec_endsWithEffect i s t h with ⟨r, rfl⟩ | ⟨u, effect, ht⟩
  · exact fault s r start
  · rw [ht]; exact counters u _ _ (effects u effect)

/-- Settles O18: of the effects, only the stores and the environment's change the memory. -/
theorem onlyStoresAndSyscallWriteMemory : Obligations.OnlyStoresAndSyscallWriteMemory := by
  intro i s t h sb sw syscall
  refine exec_frame h (fun a => rfl) (fun u effect a => ?_) (fun _ _ hv => hv) (fun _ _ _ hv => hv)
  rw [effect.mem_eq sb sw syscall]

/-- Settles O19: of the effects, only that of a multiplication or division and the environment's change HI and LO. -/
theorem onlyMultiplyDivideAndSyscallWriteHiLo : Obligations.OnlyMultiplyDivideAndSyscallWriteHiLo := by
  intro i s t h div divu mult multu syscall
  have other : writesHiLo i = false := by
    cases i with
    | div rs rt => exact absurd rfl (div rs rt)
    | divu rs rt => exact absurd rfl (divu rs rt)
    | mult rs rt => exact absurd rfl (mult rs rt)
    | multu rs rt => exact absurd rfl (multu rs rt)
    | _ => rfl
  exact exec_frame h ⟨rfl, rfl⟩ (fun u effect => effect.sameHiLo other syscall) (fun _ _ hv => hv)
    (fun _ _ _ hv => hv)

/-- Settles O20: of the effects, only that on a destination changes a register; register 0 reads 0 in every state. -/
theorem instructionsWriteOnlyTheirDestination : Obligations.InstructionsWriteOnlyTheirDestination := by
  intro i s t h syscall
  refine ⟨readReg_zero t, fun r other => ?_⟩
  exact exec_frame (P := fun v => readReg v r = readReg s r) h rfl
    (fun u effect => effect.readReg_eq syscall other) (fun _ _ hv => hv) (fun _ _ _ hv => hv)

/-! ## The statements of R20 and R21 about a step -/

/-- Settles O13: no effect writes the parameters. -/
theorem noStepChangesTheParameters : Obligations.NoStepChangesTheParameters :=
  fun _ _ => step_params

/-- Settles O11: every effect keeps the canonical memory, the stored register 0 and the fault record. -/
theorem everyStepKeepsTheStateInvariant : Obligations.EveryStepKeepsTheStateInvariant :=
  fun _ _ => step_inv

end Sys2Proof.Machine
end

section
/-! SUPPORT. Runs (spec/10_state.md R182): what every step keeps holds along a run. Under `SMC = refuse` a store that is made
lies in no word that may be fetched (spec/20_memory.md R54), so that the program text keeps its words. -/

namespace Sys2Proof.Machine

/-! ## Along a run -/

/-- What every step keeps, a run keeps. -/
theorem Reachable.keeps {P : State → Prop} {s t : State} (run : Reachable s t) (start : P s)
    (kept : ∀ u v, P u → Machine.step u = .next v → P v) : P t := by
  induction run with
  | refl => exact start
  | step _ next ih => exact kept _ _ ih next

theorem Reachable.params_eq {s t : State} (run : Reachable s t) : t.params = s.params :=
  run.keeps (P := fun v => v.params = s.params) rfl fun _ _ same next => (step_params next).trans same

/-! ## The high bits of a word -/

/-- A mask that clears the low `k` bits rounds down to a multiple of `2 ^ k`. -/
theorem toNat_and_high_mask (w : Word) (k : Nat) :
    (w &&& (BitVec.allOnes 32 <<< k)).toNat = w.toNat / 2 ^ k * 2 ^ k := by
  have rounded : w &&& (BitVec.allOnes 32 <<< k) = w >>> k <<< k := by
    apply BitVec.eq_of_getLsbD_eq
    intro i hi
    simp only [BitVec.getLsbD_and, BitVec.getLsbD_shiftLeft, BitVec.getLsbD_allOnes, BitVec.getLsbD_ushiftRight]
    by_cases low : i < k
    · simp [low]
    · have high : k + (i - k) = i := by omega
      have inside : i - k < 32 := by omega
      simp [low, hi, high, inside]
  have fits : w.toNat / 2 ^ k * 2 ^ k < 2 ^ 32 := (Nat.div_mul_le_self _ _).trans_lt w.isLt
  rw [rounded, BitVec.toNat_shiftLeft, BitVec.toNat_ushiftRight, Nat.shiftRight_eq_div_pow, Nat.shiftLeft_eq,
    Nat.mod_eq_of_lt fits]

/-- The aligned word of a byte starts at the multiple of 4 below it. -/
theorem toNat_wordBase (addr : Word) : (wordBase addr).toNat = addr.toNat / 4 * 4 :=
  toNat_and_high_mask addr 2

/-- The aligned word of each of the four bytes of a word is that word. -/
theorem wordBase_eq_of_byte {addr a : Word} (ha : aligned addr = true) (byte : a.toNat / 4 = addr.toNat / 4) :
    wordBase a = addr := by
  have multiple := (aligned_iff addr).mp ha
  apply BitVec.eq_of_toNat_eq
  rw [toNat_wordBase]
  omega

/-! ## Words that no store may change -/

/-- A word is made of its four bytes (R43). -/
theorem memWord_congr {o : Config.ByteOrder} {m m' : Memory} {addr : Word}
    (same : ∀ k < 4, memByte m' (addr.toNat + k) = memByte m (addr.toNat + k)) :
    memWord o m' addr = memWord o m addr := by
  unfold memWord
  rw [show addr.toNat = addr.toNat + 0 from rfl, same 0 (by decide), same 1 (by decide), same 2 (by decide),
    same 3 (by decide)]

/-- A byte store outside a word leaves the word as it was. -/
theorem memWord_memSet_outside {m : Memory} (h : m.wf = true) (o : Config.ByteOrder) {addr a : Word}
    (ha : aligned addr = true) (outside : wordBase a ≠ addr) (b : Byte) :
    memWord o (memSet m a.toNat b) addr = memWord o m addr := by
  refine memWord_congr fun k hk => ?_
  have apart : addr.toNat + k ≠ a.toNat := by
    intro same
    have multiple := (aligned_iff addr).mp ha
    exact outside (wordBase_eq_of_byte ha (by omega))
  rw [memByte_memSet h, if_neg apart]

/-- A word store to another aligned address leaves the word as it was. -/
theorem memWord_memSetWord_outside {m : Memory} (h : m.wf = true) (o : Config.ByteOrder) {addr a : Word}
    (ha : aligned addr = true) (inPlace : aligned a = true) (outside : a ≠ addr) (v : Word) :
    memWord o (memSetWord o m a v) addr = memWord o m addr := by
  refine memWord_congr fun k hk => memByte_memSetWord_outside h o inPlace v ?_
  have multiple := (aligned_iff addr).mp ha
  have multiple' := (aligned_iff a).mp inPlace
  have apart : a.toNat ≠ addr.toNat := fun same => outside (BitVec.eq_of_toNat_eq same)
  omega

/-- A store that is made under `SMC = refuse` touches no program text (R44). -/
theorem touchesText_of_allowed {p : Config.Params} {sz : Config.AccessSize} {a : Word}
    (allowed : writeFault p sz a = none) (refuse : p.smc = .refuse) : touchesText p sz a = false := by
  obtain ⟨-, untouched⟩ := writeFault_none.mp allowed
  exact Bool.eq_false_iff.mpr fun touched => untouched ⟨refuse, touched⟩

/-- The byte store is not into a word that may be fetched. -/
theorem wordBase_ne_of_byte_allowed {p : Config.Params} {a addr : Word} (allowed : writeFault p .byte a = none)
    (refuse : p.smc = .refuse) (fetchable : admits p .fetch .word addr = true) : wordBase a ≠ addr := by
  rintro rfl
  exact Bool.false_ne_true ((touchesText_of_allowed allowed refuse).symm.trans fetchable)

/-- The word store is not to an address that may be fetched. -/
theorem ne_of_word_allowed {p : Config.Params} {a addr : Word} (allowed : writeFault p .word a = none)
    (inPlace : aligned a = true) (refuse : p.smc = .refuse) (fetchable : admits p .fetch .word addr = true) :
    a ≠ addr := by
  rintro rfl
  have untouched := touchesText_of_allowed allowed refuse
  simp [touchesText, inText, wordBase_of_aligned inPlace, fetchable] at untouched

/-- Under `SMC = refuse` and an environment that halts, no effect changes a word that may be fetched. -/
theorem DataEffect.memWord_fetchable {i : Instr} {s u : State} (effect : DataEffect i s u) (inv : Inv s)
    (refuse : s.params.smc = .refuse) (halts : s.params.envSyscall = .halt) {addr : Word} (ha : aligned addr = true)
    (fetchable : admits s.params .fetch .word addr = true) :
    memWord s.params.byteOrder u.mem addr = memWord s.params.byteOrder s.mem addr := by
  cases effect with
  | unchanged | hiLo => rfl
  | register => rw [writeReg_mem]
  | storedByte _ allowed =>
    exact memWord_memSet_outside inv.memCanonical _ ha (wordBase_ne_of_byte_allowed allowed refuse fetchable) _
  | storedWord _ inPlace allowed =>
    exact memWord_memSetWord_outside inv.memCanonical _ ha inPlace
      (ne_of_word_allowed allowed inPlace refuse fetchable) _
  | environment => simp [environmentCall, envAnswer, halts, applyAnswer]

/-- Nor does any step. -/
theorem step_memWord_fetchable {s t : State} (next : step s = .next t) (inv : Inv s)
    (refuse : s.params.smc = .refuse) (halts : s.params.envSyscall = .halt) {addr : Word} (ha : aligned addr = true)
    (fetchable : admits s.params .fetch .word addr = true) :
    memWord s.params.byteOrder t.mem addr = memWord s.params.byteOrder s.mem addr := by
  rcases step_cases next with ⟨r, rfl⟩ | ⟨i, u, -, effect, ht⟩
  · rfl
  · rw [ht]; exact effect.memWord_fetchable inv refuse halts ha fetchable

/-- What a run from `s` keeps: the invariant, the parameters and the word at `addr`. -/
def KeepsWord (s : State) (addr : Word) (t : State) : Prop :=
  Inv t ∧ t.params = s.params ∧ memWord t.params.byteOrder t.mem addr = memWord s.params.byteOrder s.mem addr

/-- Settles O14, by induction on the run: the invariant and the parameters are kept, so each step meets the
hypotheses of `step_memWord_fetchable`. -/
theorem fetchableWordsNeverChangeUnderRefuse : Obligations.FetchableWordsNeverChangeUnderRefuse := by
  intro s t inv refuse halts run addr ha fetchable
  have stepKeeps : ∀ u v, KeepsWord s addr u → step u = .next v → KeepsWord s addr v := by
    rintro u v ⟨invU, params, word⟩ next
    rw [← params] at refuse halts fetchable
    have stepWord := step_memWord_fetchable next invU refuse halts ha fetchable
    rw [KeepsWord, step_params next]
    exact ⟨step_inv invU next, params, stepWord.trans word⟩
  obtain ⟨-, -, word⟩ := run.keeps ⟨inv, rfl, rfl⟩ stepKeeps
  exact word

end Sys2Proof.Machine
end

section
/-! SUPPORT. Where an instruction or a step stops (spec/70_reset_and_hazards.md R233, log 6; spec/10_state.md R182): only at
a load or a fetch that meets a byte with no value, and at an ended run. -/

namespace Sys2Proof.Machine

/-! ## Bytes with no value, as the reads meet them -/

theorem bytesMissing_one {m : Memory} {addr : Word} : BytesMissing m addr 1 ↔ memByte m addr.toNat = none := by
  simp [BytesMissing]

theorem bytesMissing_four {o : Config.ByteOrder} {m : Memory} {addr : Word} :
    BytesMissing m addr 4 ↔ memWord o m addr = none :=
  memWord_none.symm

theorem fetchMeetsUnspecified_iff {s : State} : FetchMeetsUnspecified s ↔ fetchWord s = .unspecified s.pc := by
  rw [fetchWord_unspecified, aligned_iff, ← bytesMissing_four]
  simp [FetchMeetsUnspecified]

theorem loadMeetsUnspecified_lb {s : State} {rt rs : RegNum} {offset : Imm16} {a : Word} :
    LoadMeetsUnspecified (.lb rt offset rs) s a ↔ readByte s (effectiveAddress s rs offset) = .unspecified a := by
  rw [readByte_unspecified, ← bytesMissing_one]
  constructor
  · rintro (⟨_, _, _, ⟨⟩, rfl, admitted, missing⟩ | ⟨_, _, _, ⟨⟩, _⟩)
    exact ⟨admitted, missing, rfl⟩
  · rintro ⟨admitted, missing, rfl⟩
    exact .inl ⟨rt, offset, rs, rfl, rfl, admitted, missing⟩

theorem loadMeetsUnspecified_lw {s : State} {rt rs : RegNum} {offset : Imm16} {a : Word} :
    LoadMeetsUnspecified (.lw rt offset rs) s a ↔ readWord s (effectiveAddress s rs offset) = .unspecified a := by
  rw [readWord_unspecified, aligned_iff, ← bytesMissing_four]
  constructor
  · rintro (⟨_, _, _, ⟨⟩, _⟩ | ⟨_, _, _, ⟨⟩, rfl, inPlace, admitted, missing⟩)
    exact ⟨inPlace, admitted, missing, rfl⟩
  · rintro ⟨inPlace, admitted, missing, rfl⟩
    exact .inr ⟨rt, offset, rs, rfl, rfl, inPlace, admitted, missing⟩

theorem not_loadMeetsUnspecified {i : Instr} {s : State} {a : Word} (lb : ∀ rt offset rs, i ≠ .lb rt offset rs)
    (lw : ∀ rt offset rs, i ≠ .lw rt offset rs) : ¬LoadMeetsUnspecified i s a := by
  rintro (⟨_, _, _, rfl, _⟩ | ⟨_, _, _, rfl, _⟩)
  · exact lb _ _ _ rfl
  · exact lw _ _ _ rfl

/-! ## Which instructions complete -/

/-- A result completes, unless it stops as a load that meets a byte with no value. -/
def CompletesButLoads (i : Instr) (s : State) (res : Result) : Prop :=
  ((∃ t, res = .next t) ∧ ∀ a, ¬LoadMeetsUnspecified i s a) ∨
    ∃ a, LoadMeetsUnspecified i s a ∧ res = .fault (.readUnspecified a)

/-- A load completes but for a read that meets a byte with no value. -/
theorem completesButLoads_finishLoad {α : Type} {i : Instr} {s : State} {rt : RegNum} {widen : α → Word}
    {r : ReadResult α} (meets : ∀ a, LoadMeetsUnspecified i s a ↔ r = .unspecified a) :
    CompletesButLoads i s (finishLoad s rt widen r) := by
  cases r with
  | value | raises => exact .inl ⟨⟨_, rfl⟩, fun a h => nomatch (meets a).mp h⟩
  | unspecified a => exact .inr ⟨a, (meets a).mpr rfl, rfl⟩

theorem exists_next_raiseIf {s : State} {res : Result} (h : ∃ t, res = .next t) (c : Bool) (r : FaultRecord) :
    ∃ t, (if c then raise r s else res) = .next t := by
  cases c
  · exact h
  · exact ⟨_, rfl⟩

theorem exists_next_finishStore (s : State) (res : Except FaultRecord State) : ∃ t, finishStore s res = .next t := by
  cases res <;> exact ⟨_, rfl⟩

/-- Every instruction but LB and LW gives a next state in every state. -/
theorem exists_next_exec {i : Instr} (s : State) (lb : ∀ rt offset rs, i ≠ .lb rt offset rs)
    (lw : ∀ rt offset rs, i ≠ .lw rt offset rs) : ∃ t, exec i s = .next t := by
  cases i with
  | lb => exact absurd rfl (lb _ _ _)
  | lw => exact absurd rfl (lw _ _ _)
  | add | addi | sub => exact exists_next_raiseIf ⟨_, rfl⟩ _ _
  | sb | sw => exact exists_next_finishStore s _
  | _ => exact ⟨_, rfl⟩

theorem exec_completesButLoads (i : Instr) (s : State) : CompletesButLoads i s (exec i s) := by
  cases i with
  | lb => exact completesButLoads_finishLoad fun _ => loadMeetsUnspecified_lb
  | lw => exact completesButLoads_finishLoad fun _ => loadMeetsUnspecified_lw
  | _ => exact .inl ⟨exists_next_exec s nofun nofun, fun _ => not_loadMeetsUnspecified nofun nofun⟩

/-! ## How a run ends -/

/-- A halted SYSCALL ends the run, once no fault record has (R182, log 10). -/
theorem step_of_halted {s : State} {w : Word} (running : s.fault = none) (halted : s.halted = some w) :
    step s = .fault (.runEnded w) := by
  refine step_of_stops (pending_stops.mpr (.inl ?_))
  simp [runStopped, running, halted]

theorem step_of_fetch_unspecified {s : State} (hr : runStopped s = none) (h : FetchMeetsUnspecified s) :
    step s = .fault (.readUnspecified s.pc) :=
  step_of_stops (pending_stops.mpr (.inr ⟨hr, s.pc, fetchMeetsUnspecified_iff.mp h, rfl⟩))

theorem step_ne_refused (s : State) (q : Refusal) : step s ≠ .refused q := by
  cases found : pending s with
  | stops f => simp [step_of_stops found]
  | raises r => simp [step_of_raises found]
  | executes i =>
    rw [step_of_executes found]
    rcases exec_completesButLoads i s with ⟨⟨t, executed⟩, -⟩ | ⟨a, -, stopped⟩
    · simp [executed]
    · simp [stopped]

/-- A step that executes fetched the word that decodes to its instruction. -/
theorem fetched_of_executes {s : State} {i : Instr} (h : pending s = .executes i) :
    ∃ w, memWord s.params.byteOrder s.mem s.pc = some w ∧ decode w = .ok i := by
  obtain ⟨-, w, fetched, decoded, -⟩ := pending_executes.mp h
  obtain ⟨-, -, word⟩ := fetchWord_value.mp fetched
  exact ⟨w, word, decoded⟩

/-- What a step from a running state can do: it gives a next state, or stops at its fetch or its load. -/
theorem step_of_running {s : State} (hr : runStopped s = none) :
    (∃ t, step s = .next t) ∨
      (FetchMeetsUnspecified s ∧ step s = .fault (.readUnspecified s.pc)) ∨
      ∃ w i a, memWord s.params.byteOrder s.mem s.pc = some w ∧ decode w = .ok i ∧
        LoadMeetsUnspecified i s a ∧ step s = .fault (.readUnspecified a) := by
  cases found : pending s with
  | raises r => exact .inl ⟨_, step_of_raises found⟩
  | stops f =>
    rcases pending_stops.mp found with ended | ⟨-, a, unspecified, -⟩
    · cases hr.symm.trans ended
    · obtain ⟨-, -, -, rfl⟩ := fetchWord_unspecified.mp unspecified
      have meets := fetchMeetsUnspecified_iff.mpr unspecified
      exact .inr (.inl ⟨meets, step_of_fetch_unspecified hr meets⟩)
  | executes i =>
    rw [step_of_executes found]
    rcases exec_completesButLoads i s with ⟨completes, -⟩ | ⟨a, meets, stopped⟩
    · exact .inl completes
    · obtain ⟨w, fetched, decoded⟩ := fetched_of_executes found
      exact .inr (.inr ⟨w, i, a, fetched, decoded, meets, stopped⟩)

/-- A step that leaves a halted run executed a SYSCALL that the environment answered with `halt`. -/
theorem halt_of_step {s t : State} {w : Word} (next : step s = .next t) (halted : t.halted = some w) :
    memWord s.params.byteOrder s.mem s.pc = some w ∧ (∃ c, decode w = .ok (.syscall c)) ∧
      envAnswer w (advancePc s 4) = .halt := by
  obtain ⟨-, notHalted⟩ := running_of_step_next next
  rcases step_cases next with ⟨r, rfl⟩ | ⟨i, u, found, effect, ht⟩
  · cases notHalted.symm.trans halted
  · have ended : u.halted = some w := by rw [ht] at halted; exact halted
    rcases effect.halted_cases with kept | ⟨code, rfl, word, answer⟩
    · cases notHalted.symm.trans (kept.symm.trans ended)
    · obtain rfl : syscallWord code = w := Option.some.inj (word.symm.trans ended)
      obtain ⟨v, fetched, decoded⟩ := fetched_of_executes found
      obtain rfl := decode_eq_syscall.mp decoded
      exact ⟨fetched, ⟨code, decoded⟩, answer⟩

/-! ## The statements -/

/-- Settles O10: `finishLoad` stops where its read does, every other ending completes. -/
theorem everyInstructionCompletesButUnspecifiedLoads : Obligations.EveryInstructionCompletesButUnspecifiedLoads :=
  exec_completesButLoads

/-- Settles O8: each clause by its own lemma; the last is the only effect that sets `halted`. -/
theorem runsEndOnlyAtFaultsAndHaltedSyscalls : Obligations.RunsEndOnlyAtFaultsAndHaltedSyscalls := by
  intro s
  refine ⟨step_ne_refused s, fun r => step_of_fault, fun w => step_of_halted, fun running notHalted => ?_,
    fun t w => halt_of_step⟩
  exact step_of_running (runStopped_none.mpr ⟨running, notHalted⟩)

/-- Settles O44: an admitted access that meets a byte with no value is what `LoadMeetsUnspecified` and
`FetchMeetsUnspecified` name. -/
theorem loadsOfUnwrittenBytesStopByName : Obligations.LoadsOfUnwrittenBytesStopByName := by
  intro s rt rs offset addr
  refine ⟨fun admitted missing => ?lb, fun inPlace admitted missing => ?lw,
    fun running notHalted inPlace admitted missing => ?fetch⟩
  case lb => exact finishLoad_fault.mpr ⟨addr, readByte_unspecified.mpr ⟨admitted, missing, rfl⟩, rfl⟩
  case lw =>
    have unspecified :=
      readWord_unspecified.mpr ⟨(aligned_iff addr).mpr inPlace, admitted, memWord_none.mpr missing, rfl⟩
    exact finishLoad_fault.mpr ⟨addr, unspecified, rfl⟩
  case fetch =>
    exact step_of_fetch_unspecified (runStopped_none.mpr ⟨running, notHalted⟩) ⟨inPlace, admitted, missing⟩

end Sys2Proof.Machine
end

section
/-! SUPPORT. Loads and stores (spec/20_memory.md R43 to R45, R50, R54; spec/44_load_store.md R150 to R154): the accesses that
pass their checks, those that the map or the program text refuses, and a word read back after it is stored. -/

namespace Sys2Proof.Machine

/-! ## Addresses (R45, R54) -/

/-- Settles O36: the unsigned reading of the sum is the sum of the readings modulo `2^32`. -/
theorem effectiveAddressWrapsModulo2To32 : Obligations.EffectiveAddressWrapsModulo2To32 := by
  intro s rs offset
  rw [effectiveAddress, BitVec.toNat_add, Int.natCast_mod, Nat.cast_add, toNat_signImm]
  simp

/-- The aligned word of an address, by subtraction (R54, log 8). -/
theorem wordBase_eq_sub (addr : Word) : wordBase addr = addr - BitVec.ofNat 32 (addr.toNat % 4) := by
  apply BitVec.eq_of_toNat_eq
  rw [toNat_wordBase]
  bv_omega

theorem inText_eq_admits {p : Config.Params} {addr : Word} (h : aligned addr = true) :
    inText p addr = admits p .fetch .word addr := by
  rw [inText, wordBase_of_aligned h]

/-- The four bytes of an aligned word lie in one word of the text, or none does. -/
theorem touchesText_word {p : Config.Params} {addr : Word} (h : aligned addr = true) :
    touchesText p .word addr = admits p .fetch .word addr := by
  have multiple := (aligned_iff addr).mp h
  have byte (k : Nat) (hk : k < 4) : wordBase (addr + BitVec.ofNat 32 k) = addr :=
    wordBase_eq_of_byte h (by simp; omega)
  have text (k : Nat) (hk : k < 4) : inText p (addr + BitVec.ofNat 32 k) = admits p .fetch .word addr := by
    rw [inText, byte k hk]
  simp only [touchesText, inText_eq_admits h, BitVec.ofNat_eq_ofNat]
  rw [text 1 (by decide), text 2 (by decide), text 3 (by decide)]
  simp

/-! ## Bytes of a word as numbers (R5, R41) -/

theorem toNat_byte_shiftLeft (b : Byte) {k : Nat} (hk : k ≤ 24) : (b.setWidth 32 <<< k).toNat = 2 ^ k * b.toNat := by
  have fits : b.toNat * 2 ^ k < 2 ^ 32 :=
    calc b.toNat * 2 ^ k < 2 ^ 8 * 2 ^ k := Nat.mul_lt_mul_of_pos_right b.isLt (Nat.two_pow_pos k)
      _ ≤ 2 ^ 8 * 2 ^ 24 := Nat.mul_le_mul_left _ (Nat.pow_le_pow_right (by decide) hk)
  rw [BitVec.toNat_shiftLeft, BitVec.toNat_setWidth_of_le (by decide), Nat.shiftLeft_eq, Nat.mod_eq_of_lt fits,
    Nat.mul_comm]

/-- The bytes do not overlap, so that or-ing them is adding them. -/
theorem toNat_concatBytes (b3 b2 b1 b0 : Byte) : (concatBytes b3 b2 b1 b0).toNat =
    b3.toNat * 2 ^ 24 + b2.toNat * 2 ^ 16 + b1.toNat * 2 ^ 8 + b0.toNat := by
  rw [concatBytes, BitVec.or_assoc, BitVec.or_assoc, BitVec.toNat_or, BitVec.toNat_or, BitVec.toNat_or,
    toNat_byte_shiftLeft _ (by decide), toNat_byte_shiftLeft _ (by decide), toNat_byte_shiftLeft _ (by decide),
    BitVec.toNat_setWidth_of_le (by decide), ← Nat.two_pow_add_eq_or_of_lt b0.isLt,
    ← Nat.two_pow_add_eq_or_of_lt (i := 16) (by omega), ← Nat.two_pow_add_eq_or_of_lt (i := 24) (by omega)]
  omega

/-- The byte of a word that starts at bit `lo`. -/
theorem extract_byte (v : Word) (lo : Nat) : v.extractLsb' lo 8 = BitVec.ofNat 8 (v.toNat / 2 ^ lo) := by
  apply BitVec.eq_of_toNat_eq
  rw [BitVec.extractLsb'_toNat, Nat.shiftRight_eq_div_pow, BitVec.toNat_ofNat]

/-- The four bytes of a word as numbers, by the table of R41. -/
theorem wordBytes_eq (o : Config.ByteOrder) (v : Word) {k : Nat} (hk : k < 4) :
    (wordBytes o v)[k] = match o with
      | .big => BitVec.ofNat 8 (v.toNat / 2 ^ (8 * (3 - k)))
      | .little => BitVec.ofNat 8 (v.toNat / 2 ^ (8 * k)) := by
  cases o <;> interval_cases k <;> exact extract_byte v _

/-! ## Loads that complete -/

theorem exec_lb_of_value {s : State} {rt rs : RegNum} {offset : Imm16} {b : Byte}
    (admitted : admits s.params .read .byte (effectiveAddress s rs offset) = true)
    (value : memByte s.mem (effectiveAddress s rs offset).toNat = some b) :
    exec (.lb rt offset rs) s = finishWrite s rt (loadedByte s b) :=
  congrArg (finishLoad s rt (loadedByte s)) (readByte_value.mpr ⟨admitted, value⟩)

theorem exec_lw_of_value {s : State} {rt rs : RegNum} {offset : Imm16} {v : Word}
    (inPlace : (effectiveAddress s rs offset).toNat % 4 = 0)
    (admitted : admits s.params .read .word (effectiveAddress s rs offset) = true)
    (value : memWord s.params.byteOrder s.mem (effectiveAddress s rs offset) = some v) :
    exec (.lw rt offset rs) s = finishWrite s rt v :=
  congrArg (finishLoad s rt id) (readWord_value.mpr ⟨(aligned_iff _).mpr inPlace, admitted, value⟩)

/-- Settles O37: LB ends by writing the widened byte, whose reading is the byte's own. -/
theorem loadByteExtendsTheByte : Obligations.LoadByteExtendsTheByte := by
  intro s rt rs offset b admitted value
  refine exec_regEffect_of_finishWrite (exec_lb_of_value admitted value) ?_
  rw [loadedByte]
  cases s.params.lbExt with
  | sign => exact BitVec.toInt_signExtend_of_le (by decide)
  | zero => exact BitVec.toNat_setWidth_of_le (by decide)

/-- Settles O38: LW ends by writing the four bytes joined, the first or the last in the high bits. -/
theorem loadWordAssemblesByByteOrder : Obligations.LoadWordAssemblesByByteOrder := by
  intro s rt rs offset b0 b1 b2 b3 addr inPlace admitted h0 h1 h2 h3
  have value := memWord_some (o := s.params.byteOrder).mpr ⟨b0, b1, b2, b3, h0, h1, h2, h3, rfl⟩
  refine exec_regEffect_of_finishWrite (exec_lw_of_value inPlace admitted value) ?_
  cases s.params.byteOrder with
  | big => exact toNat_concatBytes b0 b1 b2 b3
  | little => exact toNat_concatBytes b3 b2 b1 b0

/-! ## Accesses that are refused (R203, R211) -/

theorem exec_sb_of_fault {s : State} {rt rs : RegNum} {offset : Imm16} {r : FaultRecord}
    (h : writeFault s.params .byte (effectiveAddress s rs offset) = some r) :
    exec (.sb rt offset rs) s = .next { s with fault := some r } :=
  finishStore_next.mpr (.inr ⟨r, writeByte_error.mpr h, rfl⟩)

theorem exec_sw_of_fault {s : State} {rt rs : RegNum} {offset : Imm16} {r : FaultRecord}
    (inPlace : (effectiveAddress s rs offset).toNat % 4 = 0)
    (h : writeFault s.params .word (effectiveAddress s rs offset) = some r) :
    exec (.sw rt offset rs) s = .next { s with fault := some r } :=
  finishStore_next.mpr (.inr ⟨r, writeWord_error.mpr (.inr ⟨(aligned_iff _).mpr inPlace, h⟩), rfl⟩)

/-- Settles O40: the map and the program text each refuse by one clause of `readByte_raises`, `readWord_raises` or
`writeFault_some`. -/
theorem refusedAccessesRaiseWithTheirAddress : Obligations.RefusedAccessesRaiseWithTheirAddress := by
  intro s rt rs offset addr
  refine ⟨fun refused => ?lb, fun inPlace refused => ?lw, fun refused => ?sb, fun inPlace refused => ?sw,
    fun admitted smc text => ?sbText, fun inPlace admitted smc text => ?swText⟩
  case lb => exact finishLoad_next.mpr (.inr ⟨_, readByte_raises.mpr ⟨refused, rfl⟩, rfl⟩)
  case lw =>
    have raises := readWord_raises.mpr (.inr ⟨(aligned_iff addr).mpr inPlace, refused, rfl⟩)
    exact finishLoad_next.mpr (.inr ⟨_, raises, rfl⟩)
  case sb => exact exec_sb_of_fault (writeFault_some.mpr (.inl ⟨refused, rfl⟩))
  case sw => exact exec_sw_of_fault inPlace (writeFault_some.mpr (.inl ⟨refused, rfl⟩))
  case sbText =>
    rw [← wordBase_eq_sub] at text
    exact exec_sb_of_fault (writeFault_some.mpr (.inr ⟨admitted, smc, text, rfl⟩))
  case swText =>
    rw [← touchesText_word ((aligned_iff addr).mpr inPlace)] at text
    exact exec_sw_of_fault inPlace (writeFault_some.mpr (.inr ⟨admitted, smc, text, rfl⟩))

/-! ## Stores that are made -/

/-- A store is made where the map admits it and the policy or the address spares the program text (R44). -/
theorem writeFault_eq_none {p : Config.Params} {sz : Config.AccessSize} {addr : Word}
    (admitted : admits p .write sz addr = true) (spared : p.smc = .coherent ∨ touchesText p sz addr = false) :
    writeFault p sz addr = none := by
  refine writeFault_none.mpr ⟨admitted, ?_⟩
  rintro ⟨refuse, touched⟩
  rcases spared with coherent | untouched
  · cases refuse.symm.trans coherent
  · cases touched.symm.trans untouched

/-- Settles O41: `MEM[addr] <- b` writes one byte and no other. -/
theorem storeByteChangesExactlyOneByte : Obligations.StoreByteChangesExactlyOneByte := by
  intro s rt rs offset addr wf admitted spared
  have made := writeByte_ok (v := readReg s rt).mpr ⟨writeFault_eq_none admitted spared, rfl⟩
  refine ⟨_, finishStore_next.mpr (.inl ⟨_, made, rfl⟩), fun k hk => ?byte, fun a outside => ?frame, fun _ => rfl,
    ⟨rfl, rfl⟩, ⟨rfl, rfl, rfl, rfl⟩, rfl, rfl⟩
  case byte =>
    obtain rfl : k = 0 := by omega
    rw [advancePc_mem, memByte_memSet wf, Nat.add_zero, if_pos rfl, extract_byte]
    simp
  case frame =>
    rw [advancePc_mem, memByte_memSet wf, if_neg (by omega)]

/-- Settles O42: the word written is four bytes, each that of R41, and no other. -/
theorem storeWordChangesExactlyFourBytes : Obligations.StoreWordChangesExactlyFourBytes := by
  intro s rt rs offset addr wf inPlace admitted spared
  have place := (aligned_iff addr).mpr inPlace
  rw [← touchesText_word place] at spared
  have made := writeWord_ok (v := readReg s rt).mpr ⟨place, writeFault_eq_none admitted spared, rfl⟩
  refine ⟨_, finishStore_next.mpr (.inl ⟨_, made, rfl⟩), fun k hk => ?bytes, fun a outside => ?frame, fun _ => rfl,
    ⟨rfl, rfl⟩, ⟨rfl, rfl, rfl, rfl⟩, rfl, rfl⟩
  case bytes =>
    refine Eq.trans ?_ (congrArg some (wordBytes_eq s.params.byteOrder (readReg s rt) hk))
    rw [advancePc_mem, memByte_memSetWord wf _ place]
    interval_cases k <;> simp
  case frame => exact memByte_memSetWord_outside wf _ place _ outside

/-! ## A word read back after it is stored -/

/-- An SW that raises nothing is aligned and leaves its word in memory. -/
theorem exec_sw_stored {s t : State} {rt rs : RegNum} {offset : Imm16} (h : exec (.sw rt offset rs) s = .next t)
    (completes : t.fault = none) : aligned (effectiveAddress s rs offset) = true ∧ t.params = s.params ∧
      t.mem = memSetWord s.params.byteOrder s.mem (effectiveAddress s rs offset) (readReg s rt) := by
  rcases finishStore_next.mp h with ⟨u, made, rfl⟩ | ⟨r, -, rfl⟩
  · obtain ⟨place, -, rfl⟩ := writeWord_ok.mp made
    exact ⟨place, rfl, rfl⟩
  · cases completes

/-- Settles O15: the fetch passes its checks and reads the word back (`memWord_memSetWord`). -/
theorem coherentFetchSeesTheStoredWord : Obligations.CoherentFetchSeesTheStoredWord := by
  intro s t u rt rs offset wf _ _ stores completes mem params pc admitted
  obtain ⟨place, -, stored⟩ := exec_sw_stored stores completes
  rw [← params] at admitted
  refine fetchWord_value.mpr ⟨pc ▸ place, admitted, ?_⟩
  rw [mem, stored, params, pc]
  exact memWord_memSetWord wf _ place _

/-- Settles O43: a load that raises nothing writes the word it read, which is the word stored. -/
theorem loadWordAfterStoreWordReadsItBack : Obligations.LoadWordAfterStoreWordReadsItBack := by
  intro s t u rt rs rt' rs' offset offset' wf _ stores storeCompletes same loads loadCompletes nonzero
  obtain ⟨place, params, stored⟩ := exec_sw_stored stores storeCompletes
  rcases finishLoad_next.mp loads with ⟨v, value, rfl⟩ | ⟨r, -, rfl⟩
  · obtain ⟨-, -, word⟩ := readWord_value.mp value
    rw [same, stored, params, memWord_memSetWord wf _ place] at word
    rw [readReg_advancePc, readReg_writeReg_same _ nonzero]
    exact (Option.some.inj word).symm
  · cases loadCompletes

end Sys2Proof.Machine
end

section
/-! SUPPORT. Addition, subtraction and shifts (spec/40_arithmetic.md R100 to R106, spec/45_shift.md R160 to R166): the exact
number that each of them writes. -/

namespace Sys2Proof.Machine

/-! ## Exact results in range (R100) -/

/-- A number in the signed range is the signed reading of its word. -/
theorem toInt_ofInt_of_inRange {exact : Int} (h : ¬OutOfRange exact) : (BitVec.ofInt 32 exact).toInt = exact := by
  rw [OutOfRange, not_or, not_lt, not_lt] at h
  obtain ⟨low, high⟩ := h
  rw [BitVec.toInt_ofInt]
  exact Int.bmod_eq_of_le (by omega) (by omega)

theorem toInt_add_of_inRange {a b : Word} (h : ¬OutOfRange (a.toInt + b.toInt)) :
    (a + b).toInt = a.toInt + b.toInt := by
  rw [← toInt_ofInt_of_inRange h, BitVec.toInt_add, BitVec.toInt_ofInt]

theorem toInt_sub_of_inRange {a b : Word} (h : ¬OutOfRange (a.toInt - b.toInt)) :
    (a - b).toInt = a.toInt - b.toInt := by
  rw [← toInt_ofInt_of_inRange h, BitVec.toInt_sub, BitVec.toInt_ofInt]

/-- The checked ending of ADD, ADDI and SUB is the unchecked one where the exact result is in range. -/
theorem checked_of_inRange {s : State} {exact : Int} {r : FaultRecord} {res : Result} (h : ¬OutOfRange exact) :
    (if overflows exact then raise r s else res) = res :=
  if_neg (mt overflows_iff.mp h)

/-- Settles O21: the check passes, and in range the word written reads as the exact result. -/
theorem signedArithmeticWritesTheExactResult : Obligations.SignedArithmeticWritesTheExactResult := by
  intro s rd rs rt imm
  refine ⟨fun inRange => ?add, fun inRange => ?addi, fun inRange => ?sub⟩
  case add => exact exec_regEffect_of_finishWrite (checked_of_inRange inRange) (toInt_add_of_inRange inRange)
  case addi =>
    rw [← toInt_signImm] at inRange ⊢
    exact exec_regEffect_of_finishWrite (checked_of_inRange inRange) (toInt_add_of_inRange inRange)
  case sub => exact exec_regEffect_of_finishWrite (checked_of_inRange inRange) (toInt_sub_of_inRange inRange)

/-! ## Results modulo `2^32` -/

/-- The unsigned reading is the signed one modulo `2^32` (R6). -/
theorem toNat_eq_toInt_emod (v : Word) : (v.toNat : Int) = v.toInt % 2 ^ 32 := by
  have small : (v.toNat : Int) < 2 ^ 32 := by exact_mod_cast v.isLt
  rw [BitVec.toInt_eq_toNat_bmod]
  exact (Int.emod_eq_of_lt (Int.natCast_nonneg _) small).symm.trans (Int.bmod_emod).symm

/-- A sum with a sign-extended immediate: the unsigned reading is the sum of the signed ones, modulo `2^32`. -/
theorem toNat_add_signImm (a : Word) (imm : Imm16) :
    ((a + signImm imm).toNat : Int) = (a.toInt + imm.toInt) % 2 ^ 32 := by
  rw [toNat_eq_toInt_emod, BitVec.toInt_add, toInt_signImm]
  exact Int.bmod_emod

/-- Settles O23: each of the three ends by writing the sum or difference of the words. -/
theorem unsignedArithmeticWrapsAndNeverRaises : Obligations.UnsignedArithmeticWrapsAndNeverRaises := by
  intro s rd rs rt imm
  refine ⟨?addu, ?subu, ?addiu⟩
  case addu => exact exec_regEffect_of_finishWrite rfl (BitVec.toNat_add _ _)
  case subu => exact exec_regEffect_of_finishWrite rfl (by rw [BitVec.toNat_sub]; congr 1; omega)
  case addiu => exact exec_regEffect_of_finishWrite rfl (toNat_add_signImm _ imm)

/-! ## Shifts -/

theorem getLsbD_shiftLeft_eq (a : Word) {n k : Nat} (hk : k < 32) :
    (shiftLeft a n).getLsbD k = if n ≤ k then a.getLsbD (k - n) else false := by
  rw [shiftLeft, BitVec.getLsbD_shiftLeft]
  by_cases h : n ≤ k
  · simp [hk, h]
  · simp [Nat.lt_of_not_le h, h]

theorem getLsbD_shiftRightLogical (a : Word) (n k : Nat) :
    (shiftRightLogical a n).getLsbD k = if k + n ≤ 31 then a.getLsbD (k + n) else false := by
  rw [shiftRightLogical, BitVec.getLsbD_ushiftRight, Nat.add_comm n k]
  split
  case isTrue => rfl
  case isFalse h => exact BitVec.getLsbD_of_ge _ _ (by omega)

theorem getLsbD_shiftRightArithmetic (a : Word) {n k : Nat} (hk : k < 32) :
    (shiftRightArithmetic a n).getLsbD k = if k + n ≤ 31 then a.getLsbD (k + n) else a.getLsbD 31 := by
  rw [shiftRightArithmetic, BitVec.getLsbD_sshiftRight, Nat.add_comm n k, BitVec.msb_eq_getLsbD_last]
  have inside : decide (32 ≤ k) = false := by simpa using hk
  simp only [inside, Nat.lt_succ_iff]
  simp

/-- Settles O46: each shift ends by writing the shifted word, whose bits the lemmas above give. -/
theorem fixedShiftsMoveBitsByShamt : Obligations.FixedShiftsMoveBitsByShamt := by
  intro s rd rt shamt a n
  refine ⟨exec_regEffect_of_finishWrite rfl fun k hk => ?sll, exec_regEffect_of_finishWrite rfl fun k _ => ?srl,
    exec_regEffect_of_finishWrite rfl fun k hk => ?sra⟩
  case sll => exact getLsbD_shiftLeft_eq a hk
  case srl => exact getLsbD_shiftRightLogical a n k
  case sra => exact getLsbD_shiftRightArithmetic a hk

/-- The amount of a shift by a register is the register modulo 32 (R160). -/
theorem shiftAmount_eq_mod (v : Word) : shiftAmount v = v.toNat % 32 := by
  simp [shiftAmount]

/-- Settles O47: a left shift multiplies and a right shift divides by a power of 2. -/
theorem variableShiftsUseTheLowFiveBits : Obligations.VariableShiftsUseTheLowFiveBits := by
  intro s rd rt rs a n
  refine ⟨exec_regEffect_of_finishWrite rfl ?sllv, exec_regEffect_of_finishWrite rfl ?srlv⟩
  case sllv => rw [shiftAmount_eq_mod, shiftLeft, BitVec.toNat_shiftLeft, Nat.shiftLeft_eq]
  case srlv => rw [shiftAmount_eq_mod, shiftRightLogical, BitVec.toNat_ushiftRight, Nat.shiftRight_eq_div_pow]

end Sys2Proof.Machine
end

section
/-! SUPPORT. Multiply, divide and the moves from HI and LO (spec/43_muldiv.md R140 to R148): off its corners a division
leaves the quotient and the remainder, and both multiplications leave the same low word. -/

namespace Sys2Proof.Machine

/-! ## Division off its corners (R141, R142) -/

theorem exec_div_of_ordinary {s : State} {rs rt : RegNum} (h : divCornerCase (readReg s rs) (readReg s rt) = false) :
    exec (.div rs rt) s = finishDivision s (signedDivision (readReg s rs) (readReg s rt)) :=
  congrArg (finishDivision s) (if_neg (Bool.eq_false_iff.mp h))

theorem exec_divu_of_ordinary {s : State} {rs rt : RegNum} (h : divuCornerCase (readReg s rt) = false) :
    exec (.divu rs rt) s = finishDivision s (unsignedDivision (readReg s rs) (readReg s rt)) :=
  congrArg (finishDivision s) (if_neg (Bool.eq_false_iff.mp h))

/-- The quotient of two signed readings is in range but at the corner: a divisor of size 2 or more halves the dividend,
1 keeps it, and -1 turns it over. -/
theorem tdiv_inRange {a b : Word} (corner : ¬(a.toInt = -2 ^ 31 ∧ b.toInt = -1)) :
    ¬OutOfRange (a.toInt.tdiv b.toInt) := by
  have low : -2 ^ 31 ≤ a.toInt := a.le_toInt
  have high : a.toInt < 2 ^ 31 := a.toInt_lt
  have size : (a.toInt.tdiv b.toInt).natAbs = a.toInt.natAbs / b.toInt.natAbs := Int.natAbs_tdiv _ _
  rw [OutOfRange]
  by_cases one : b.toInt = 1
  · rw [one, Int.tdiv_one]; omega
  by_cases minusOne : b.toInt = -1
  · rw [minusOne, Int.tdiv_neg, Int.tdiv_one]; omega
  by_cases zero : b.toInt = 0
  · rw [zero, Int.tdiv_zero]; omega
  have halved : a.toInt.natAbs / b.toInt.natAbs ≤ a.toInt.natAbs / 2 := Nat.div_le_div_left (by omega) (by decide)
  omega

/-- The remainder is smaller than the divisor. -/
theorem natAbs_tmod_lt {a b : Int} (zero : b ≠ 0) : (a.tmod b).natAbs < b.natAbs := by
  rw [Int.natAbs_tmod]
  exact Nat.mod_lt _ (Int.natAbs_pos.mpr zero)

theorem tmod_inRange {a b : Word} (zero : b.toInt ≠ 0) : ¬OutOfRange (a.toInt.tmod b.toInt) := by
  have low : -2 ^ 31 ≤ b.toInt := b.le_toInt
  have high : b.toInt < 2 ^ 31 := b.toInt_lt
  have size := natAbs_tmod_lt (a := a.toInt) zero
  rw [OutOfRange]
  omega

/-- The remainder is zero or of the dividend's sign. -/
theorem tmod_sign (a b : Int) : a.tmod b = 0 ∨ (a.tmod b < 0 ↔ a < 0) := by
  rcases le_or_gt 0 a with h | h
  · have nonneg := Int.tmod_nonneg b h
    omega
  · have nonneg := Int.tmod_nonneg b (neg_nonneg.mpr h.le)
    rw [Int.neg_tmod] at nonneg
    omega

/-- Off the corners both halves of the pair read as the exact quotient and remainder. -/
theorem toInt_signedDivision {a b : Word} (zero : b.toInt ≠ 0) (corner : ¬(a.toInt = -2 ^ 31 ∧ b.toInt = -1)) :
    (signedDivision a b).2.toInt = a.toInt.tdiv b.toInt ∧ (signedDivision a b).1.toInt = a.toInt.tmod b.toInt := by
  have remainder : a.toInt - a.toInt.tdiv b.toInt * b.toInt = a.toInt.tmod b.toInt := by
    rw [Int.tmod_def, mul_comm]
  refine ⟨toInt_ofInt_of_inRange (tdiv_inRange corner), ?_⟩
  simp only [signedDivision, remainder]
  exact toInt_ofInt_of_inRange (tmod_inRange zero)

/-- Settles O31: the pair is the quotient truncated toward zero and the remainder that goes with it. -/
theorem signedDivisionTruncatesTowardZero : Obligations.SignedDivisionTruncatesTowardZero := by
  intro s rs rt a b zero corner
  have ordinary : divCornerCase (readReg s rs) (readReg s rt) = false := by
    simpa [divCornerCase] using ⟨zero, fun h h' => corner ⟨h, h'⟩⟩
  obtain ⟨t, finishes, effect⟩ := hiLoEffect_finishDivision s (signedDivision (readReg s rs) (readReg s rt))
  obtain ⟨quotient, remainder⟩ := toInt_signedDivision zero corner
  refine ⟨t, _, _, (exec_div_of_ordinary ordinary).trans finishes, effect, ?_⟩
  rw [quotient, remainder]
  exact ⟨(Int.tdiv_mul_add_tmod _ _).symm, natAbs_tmod_lt zero, tmod_sign _ _⟩

theorem toNat_unsignedDivision (a b : Word) :
    (unsignedDivision a b).2.toNat = a.toNat / b.toNat ∧ (unsignedDivision a b).1.toNat = a.toNat % b.toNat := by
  have remainder : a.toNat - a.toNat / b.toNat * b.toNat = a.toNat % b.toNat := by
    rw [Nat.mod_def, Nat.mul_comm]
  have quotientFits : a.toNat / b.toNat < 2 ^ 32 := (Nat.div_le_self _ _).trans_lt a.isLt
  have remainderFits : a.toNat % b.toNat < 2 ^ 32 := (Nat.mod_le _ _).trans_lt a.isLt
  simp only [unsignedDivision, remainder, BitVec.toNat_ofNat, Nat.mod_eq_of_lt quotientFits,
    Nat.mod_eq_of_lt remainderFits, and_self]

/-- Settles O32: off the corner of DIVU the pair is the quotient and the remainder of the natural numbers. -/
theorem unsignedDivisionGivesQuotientAndRemainder : Obligations.UnsignedDivisionGivesQuotientAndRemainder := by
  intro s rs rt zero
  have ordinary : divuCornerCase (readReg s rt) = false := Bool.eq_false_iff.mpr (mt divuCornerCase_iff.mp zero)
  obtain ⟨t, finishes, effect⟩ := hiLoEffect_finishDivision s (unsignedDivision (readReg s rs) (readReg s rt))
  exact ⟨t, _, _, (exec_divu_of_ordinary ordinary).trans finishes, effect, toNat_unsignedDivision _ _⟩

/-! ## Multiplication (R143, R144, R148) -/

/-- The low word of either product is the product of the unsigned readings, modulo `2^32`. -/
theorem toNat_productLow (k : Config.MultKind) (a b : Word) :
    (productLow k a b).toNat = a.toNat * b.toNat % 2 ^ 32 := by
  have words : productLow k a b = a * b := by
    cases k with
    | mult => rw [productLow, product, BitVec.ofInt_mul, BitVec.ofInt_toInt, BitVec.ofInt_toInt]
    | multu =>
      rw [productLow, product, BitVec.ofInt_mul, BitVec.ofInt_natCast, BitVec.ofInt_natCast, BitVec.ofNat_toNat,
        BitVec.ofNat_toNat, BitVec.setWidth_eq, BitVec.setWidth_eq]
  rw [words, BitVec.toNat_mul]

/-- The high word is the quotient of the exact product by `2^32`, modulo `2^32`. -/
theorem toNat_productHigh (k : Config.MultKind) (a b : Word) :
    ((productHigh k a b).toNat : Int) = product k a b / 2 ^ 32 % 2 ^ 32 := by
  rw [productHigh, Int.fdiv_eq_ediv_of_nonneg _ (by decide), toNat_eq_toInt_emod, BitVec.toInt_ofInt]
  exact Int.bmod_emod

/-- Settles O34: the state after a multiplication field by field; the low word does not depend on the reading. -/
theorem multiplicationFollowsThePolicyForHi : Obligations.MultiplicationFollowsThePolicyForHi := by
  intro s rs rt k p
  refine ⟨multiply k (readReg s rs) (readReg s rt) s, ?exec, toNat_productLow k _ _, ?hi, fun _ => rfl, fun _ => rfl,
    ⟨rfl, rfl⟩, rfl, rfl, rfl⟩
  case exec => cases k <;> rfl
  case hi =>
    have reading : product k (readReg s rs) (readReg s rt) = p := by cases k <;> rfl
    rw [multiply_hi, multiply_draws, multHi, multDraws]
    cases s.params.multHi with
    | unspecified | unchanged => exact ⟨rfl, rfl⟩
    | highWord => exact ⟨reading ▸ toNat_productHigh k _ _, rfl⟩

/-- Settles O35: both end by writing the register they copy. -/
theorem movesFromHiLoCopyTheRegister : Obligations.MovesFromHiLoCopyTheRegister :=
  fun s rd => ⟨finishWrite_effect s rd s.hi, finishWrite_effect s rd s.lo⟩

end Sys2Proof.Machine
end

section
/-! SUPPORT. Branches and jumps (spec/42_branch_jump.md R120 to R135): what a branch and a link leave behind, the region of a
jump's target, and a control transfer in the delay slot of another. -/

namespace Sys2Proof.Machine

/-! ## Branches -/

/-- The state after a branch that links nothing, by the condition it tests. -/
theorem jumpEffect_branch_of_iff {s : State} {taken : Bool} {c : Prop} [Decidable c] (condition : taken = true ↔ c)
    (offset : Imm16) : JumpEffect s (branch s taken offset)
      (if c then s.npc + BitVec.ofInt 32 (4 * offset.toInt) else s.npc + 4) := by
  have target : s.npc + (if taken then branchDisplacement offset else 4) =
      if c then s.npc + BitVec.ofInt 32 (4 * offset.toInt) else s.npc + 4 := by
    rw [← branchDisplacement_eq_ofInt, apply_ite (s.npc + ·)]
    exact if_congr condition rfl rfl
  exact target ▸ jumpEffect_branch s taken offset

/-- An instruction that ends with a branch completes with its effect. -/
theorem exec_jumpEffect_of_branch {i : Instr} {s : State} {taken : Bool} {offset : Imm16} {c : Prop} [Decidable c]
    (ends : exec i s = .next (branch s taken offset)) (condition : taken = true ↔ c) :
    ∃ t, exec i s = .next t ∧
      JumpEffect s t (if c then s.npc + BitVec.ofInt 32 (4 * offset.toInt) else s.npc + 4) :=
  ⟨_, ends, jumpEffect_branch_of_iff condition offset⟩

/-- Settles O26: the test of BNE is that of BEQ turned over. -/
theorem equalityBranchesMoveNpc : Obligations.EqualityBranchesMoveNpc := by
  intro s rs rt offset
  refine ⟨exec_jumpEffect_of_branch rfl beq_iff_eq, ?bne⟩
  case bne =>
    rw [← ite_not]
    exact exec_jumpEffect_of_branch rfl bne_iff_ne

/-! The tests against zero read the register as signed. -/

theorem geZero_iff {a : Word} : geZero a = true ↔ a.toInt ≥ 0 := decide_eq_true_iff
theorem gtZero_iff {a : Word} : gtZero a = true ↔ a.toInt > 0 := decide_eq_true_iff
theorem leZero_iff {a : Word} : leZero a = true ↔ a.toInt ≤ 0 := decide_eq_true_iff
theorem ltZero_iff {a : Word} : ltZero a = true ↔ a.toInt < 0 := decide_eq_true_iff

/-- Settles O27: each of the four ends with a branch on its test against zero. -/
theorem zeroComparingBranchesMoveNpc : Obligations.ZeroComparingBranchesMoveNpc :=
  fun _ _ _ => ⟨exec_jumpEffect_of_branch rfl geZero_iff, exec_jumpEffect_of_branch rfl gtZero_iff,
    exec_jumpEffect_of_branch rfl leZero_iff, exec_jumpEffect_of_branch rfl ltZero_iff⟩

/-! ## Links (R123, R127, R132) -/

theorem branchLink_of_links {s : State} {taken : Bool} (h : taken = true ∨ s.params.linkConditional = false) :
    branchLink s taken = writeReg s linkReg (linkValue s) := by
  refine if_pos ?_
  rcases h with h | h <;> simp [h]

theorem branchLink_of_not_taken {s : State} (h : s.params.linkConditional = true) : branchLink s false = s := by
  simp [branchLink, h]

/-- A branch after the link moves the program counters as the branch alone would. -/
theorem linkEffect_branch {s : State} {taken : Bool} {offset : Imm16} {target : Word}
    (links : taken = true ∨ s.params.linkConditional = false) (jumps : JumpEffect s (branch s taken offset) target) :
    LinkEffect s (branch (branchLink s taken) taken offset) target := by
  obtain ⟨-, -, -, -, -, npc⟩ := jumps
  rw [branchLink_of_links links]
  refine linkEffect_of_write s rfl ⟨by simp, by simp⟩ (fun a => by simp) ⟨by simp, by simp, by simp, by simp⟩
    (by simp) ?_
  rw [← npc, branch_npc, branch_npc, writeReg_npc]

/-- An instruction that ends with a link and a branch links when it is taken, and else as `LINK_CONDITIONAL` says. -/
theorem exec_linkEffect_of_branchLink {i : Instr} {s : State} {taken : Bool} {offset : Imm16} {c : Prop} [Decidable c]
    (ends : exec i s = .next (branch (branchLink s taken) taken offset)) (condition : taken = true ↔ c) :
    ∃ t, exec i s = .next t ∧
      if c then LinkEffect s t (s.npc + BitVec.ofInt 32 (4 * offset.toInt))
      else if s.params.linkConditional = true then JumpEffect s t (s.npc + 4) else LinkEffect s t (s.npc + 4) := by
  refine ⟨_, ends, ?_⟩
  have jumps := jumpEffect_branch_of_iff (s := s) condition offset
  split
  case isTrue holds =>
    rw [if_pos holds] at jumps
    exact linkEffect_branch (.inl (condition.mpr holds)) jumps
  case isFalse fails =>
    obtain rfl : taken = false := Bool.eq_false_iff.mpr (mt condition.mp fails)
    rw [if_neg fails] at jumps
    split
    case isTrue conditional => rwa [branchLink_of_not_taken conditional]
    case isFalse always => exact linkEffect_branch (.inr (Bool.eq_false_iff.mpr always)) jumps

/-- Settles O28: both end with a link and a branch on their test, read before the link is written. -/
theorem linkingBranchesWriteRegister31 : Obligations.LinkingBranchesWriteRegister31 :=
  fun _ _ _ => ⟨exec_linkEffect_of_branchLink rfl geZero_iff, exec_linkEffect_of_branchLink rfl ltZero_iff⟩

/-! ## Jumps (R129 to R131, R134) -/

/-- The target of J and JAL: the region is a multiple of `2^28` and the index lies below it. -/
theorem toNat_jumpTarget (slot : Word) (target : Target26) :
    (jumpTarget slot target).toNat = slot.toNat / 2 ^ 28 * 2 ^ 28 + target.toNat * 4 := by
  have region : (slot &&& 0xF0000000#32).toNat = slot.toNat / 2 ^ 28 * 2 ^ 28 := toNat_and_high_mask slot 28
  have index : (BitVec.ofNat 32 (4 * target.toNat)).toNat = 4 * target.toNat := by
    rw [BitVec.toNat_ofNat]; omega
  rw [jumpTarget_eq_ofNat, BitVec.toNat_or, region, index, Nat.mul_comm _ (2 ^ 28),
    ← Nat.two_pow_add_eq_or_of_lt (by omega), Nat.mul_comm 4]

/-- Settles O29: both jump to `jumpTarget` of the delay slot's address. -/
theorem jumpsStayInTheRegionOfTheDelaySlot : Obligations.JumpsStayInTheRegionOfTheDelaySlot := by
  intro s target
  refine ⟨jumpTarget s.npc target, toNat_jumpTarget s.npc target, ⟨_, rfl, jumpEffect_jumpTo s _⟩, ⟨_, rfl, ?jal⟩⟩
  case jal =>
    exact linkEffect_of_write s rfl ⟨by simp, by simp⟩ (fun a => by simp) ⟨by simp, by simp, by simp, by simp⟩
      (by simp) rfl

/-- Settles O30: the target is `npc` after JR, so that it is `pc` after the delay slot instruction. -/
theorem jumpRegisterTakesAllBitsAndFaultsAtTheFetch : Obligations.JumpRegisterTakesAllBitsAndFaultsAtTheFetch := by
  refine ⟨fun s rs => ⟨_, rfl, jumpEffect_jumpTo s _⟩, ?_⟩
  rintro s t u rs i misaligned - ⟨⟩ executed running notHalted
  obtain ⟨pc, -⟩ := exec_pc_of_no_fault executed running
  have target : u.pc = readReg s rs := pc
  rw [← target] at misaligned ⊢
  exact step_of_misaligned_pc (runStopped_none.mpr ⟨running, notHalted⟩) misaligned

/-! ## A control transfer in a delay slot (R133, R237) -/

/-- A control transfer raises nothing and ends no run. -/
theorem transfer_keeps_running {i : Instr} {s t : State} (transfer : isControlTransfer i = true)
    (h : exec i s = .next t) : t.fault = s.fault ∧ t.halted = s.halted := by
  cases i with
  | beq | bgez | bgtz | blez | bltz | bne | j | jr => cases h; exact ⟨rfl, rfl⟩
  | bgezal | bltzal => cases h; exact ⟨branchLink_fault s _, branchLink_halted s _⟩
  | jal => cases h; exact ⟨writeReg_fault s _ _, writeReg_halted s _ _⟩
  | _ => cases transfer

theorem exec_params {i : Instr} {s t : State} (h : exec i s = .next t) : t.params = s.params :=
  exec_frame (P := fun v => v.params = s.params) h rfl (fun _ effect => effect.params_eq) (fun _ _ hv => hv)
    (fun _ _ _ hv => hv)

/-- Settles O17: the delay slot is at `pc + 4` and its fall-through at `pc + 8`, so that R133 refuses the second
transfer exactly where the first put something else in `npc`. -/
theorem controlTransferInDelaySlotRaisesOnlyWhenTaken : Obligations.ControlTransferInDelaySlotRaisesOnlyWhenTaken := by
  intro i j s t w transfer running notHalted sequential executed place admitted word decoded transfer'
  obtain ⟨fault, halted⟩ := transfer_keeps_running transfer executed
  obtain ⟨pc, -⟩ := exec_pc_of_no_fault executed (fault.trans running)
  have hr : runStopped t = none := runStopped_none.mpr ⟨fault.trans running, halted.trans notHalted⟩
  have fetched : fetchWord t = .value w := fetchWord_value.mpr ⟨place, admitted, word⟩
  have fallThrough : t.pc + 4 = s.pc + 8 := by
    rw [pc, sequential, BitVec.add_assoc]; rfl
  have refuses := delaySlotRefuses_iff (s := t) (i := j)
  rw [fallThrough, exec_params executed] at refuses
  refine ⟨fun policy taken => ?fault, fun allowed => ?executes⟩
  case fault => exact step_of_delaySlotRefuses hr fetched decoded (refuses.mpr ⟨transfer', taken, policy⟩)
  case executes =>
    refine step_of_delaySlot_allowed hr fetched decoded (Bool.eq_false_iff.mpr fun refused => ?_)
    obtain ⟨-, taken, policy⟩ := refuses.mp refused
    rcases allowed with literal | same
    · cases policy.symm.trans literal
    · exact taken same

end Sys2Proof.Machine
end

section
/-! SUPPORT. SYSCALL, launch and reset (spec/47_system.md R180 to R182, spec/10_state.md R32, spec/70_reset_and_hazards.md R230
to R235): registers and memory that come from outside, and the first step of a run. -/

namespace Sys2Proof.Machine

/-! ## Registers and memory from outside (R32, R181) -/

/-- A register file handed over reads as it is, but for register 0. -/
theorem readReg_of_x_eq_set_zero {s : State} {x : Vector Word 32} (h : s.x = x.set 0 0) (r : RegNum) :
    readReg s r = if r = 0#5 then 0#32 else x[r.toNat]'r.isLt := by
  split
  case isTrue zero => rw [zero, readReg_zero]
  case isFalse nonzero =>
    have index : 0 ≠ r.toNat := fun e => nonzero (BitVec.eq_of_toNat_eq e.symm)
    rw [readReg_of_ne_zero s nonzero]
    simp [h, index]

/-- Cells with strictly rising addresses below `2^32`, written one after the other: each address holds its cell, and the
others what they held. -/
theorem memByte_foldl_memSet {cells : List Host.Cell} (rising : cells.Pairwise fun c d => c.1 < d.1)
    (small : ∀ c ∈ cells, c.1 < 2 ^ 32) {m : Memory} (h : m.wf = true) (a : Nat) :
    memByte (cells.foldl (fun m c => if c.1 < 2 ^ 32 then memSet m c.1 c.2 else m) m) a =
      (memByte cells a).or (memByte m a) := by
  induction cells generalizing m with
  | nil => rfl
  | cons c cells ih =>
    obtain ⟨above, rising'⟩ := List.pairwise_cons.mp rising
    obtain ⟨hc, small'⟩ := List.forall_mem_cons.mp small
    rw [List.foldl_cons, if_pos hc, ih rising' small' (memSet_wf h hc c.2), memByte_memSet h]
    by_cases here : a = c.1
    · rw [here, memByte_of_below above]
      simp [unlistedByte, memByte]
    · have elsewhere : ¬c.1 = a := fun e => here e.symm
      simp [here, elsewhere, memByte]

/-- A canonical memory handed over is that memory (log 19). -/
theorem memByte_memOfCells {cells : List Host.Cell} (h : Memory.wf cells = true) (a : Nat) :
    memByte (memOfCells cells) a = memByte cells a := by
  obtain ⟨rising, listed⟩ := (Memory.wf_iff cells).mp h
  have written := memByte_foldl_memSet rising (fun c hc => (listed c hc).1) wf_nil a
  rw [memOfCells, written, memByte, unlistedByte, Option.or_none]

/-! ## SYSCALL (R180 to R182) -/

theorem toNat_syscallWord (code : SyscallCode) : (syscallWord code).toNat = code.toNat * 2 ^ 6 + 12 := by
  have place : (atSyscallCode code).toNat = 2 ^ 6 * code.toNat := by
    rw [atSyscallCode, BitVec.toNat_shiftLeft, BitVec.toNat_setWidth_of_le (by decide), Nat.shiftLeft_eq,
      Nat.mod_eq_of_lt (by omega), Nat.mul_comm]
  have constant : (0x0000000C : Word).toNat < 2 ^ 6 := by decide
  rw [syscallWord, BitVec.or_comm, BitVec.toNat_or, place, ← Nat.two_pow_add_eq_or_of_lt constant, Nat.mul_comm]
  rfl

theorem environmentCall_of_halt {w : Word} {s : State} (h : envAnswer w s = .halt) :
    environmentCall w s = { s with halted := some w } := by
  rw [environmentCall, h, applyAnswer]

theorem environmentCall_of_resume {w : Word} {s : State} {x : Vector Word 32} {hi lo : Word} {mem : List Host.Cell}
    (h : envAnswer w s = .resume x hi lo mem) :
    environmentCall w s = { s with x := x.set 0 0, hi := hi, lo := lo, mem := memOfCells mem } := by
  rw [environmentCall, h, applyAnswer]

/-- Settles O49: the environment receives the word of `decode_eq_syscall` and the state after `advance_pc(4)`; each of
its two answers is one case of the state after the call. -/
theorem syscallHandsTheStateToTheEnvironment : Obligations.SyscallHandsTheStateToTheEnvironment := by
  intro s code
  refine ⟨environmentCall (syscallWord code) (advancePc s 4), syscallWord code, toNat_syscallWord code,
    fun v => decode_eq_syscall, rfl, ⟨by simp, by simp⟩, by simp, by simp, by simp, ?answer⟩
  case answer =>
    split
    next halts =>
      have answer : envAnswer (syscallWord code) (advancePc s 4) = .halt := halts
      rw [environmentCall_of_halt answer]
      exact ⟨rfl, fun _ => rfl, ⟨rfl, rfl⟩, fun _ => rfl⟩
    next x hi lo mem resumes =>
      have answer : envAnswer (syscallWord code) (advancePc s 4) = .resume x hi lo mem := resumes
      rw [environmentCall_of_resume answer]
      exact ⟨rfl, rfl, rfl, readReg_of_x_eq_set_zero rfl, fun wf a => memByte_memOfCells wf a⟩

/-! ## Launch and reset (R32, R230, R235) -/

/-- Reset is one of the launches. -/
theorem reset_eq_launch :
    State.reset = launch paramsAtReset entryAtReset ⟨Vector.replicate 32 0, 0, 0, []⟩ := by
  decide

theorem launch_inv (p : Config.Params) (entry : Word) (init : Init) : Inv (launch p entry init) :=
  ⟨memOfCells_wf init.mem, by simp [launch], .inl rfl⟩

/-- The text is what the map lets the run fetch, and no step writes the map (log 7, log 8). -/
theorem textMapped (s : State) : TextMapped s where
  mapped := by
    rintro addr ⟨multiple, text⟩
    rwa [inText_eq_admits ((aligned_iff addr).mpr multiple)] at text
  fixed _ t run addr := by
    rw [run.params_eq]

theorem launch_premises {p : Config.Params} {entry : Word} (init : Init) (place : entry.toNat % 4 = 0)
    (admitted : admits p .fetch .word entry = true) : LaunchPremises (launch p entry init) where
  entryAligned := (aligned_iff entry).mpr place
  npcSequential := rfl
  noFault := rfl
  notEnded := rfl
  registerZero := readReg_zero _
  entryMapped := admitted
  textMapped := textMapped _

/-- Settles O12: reset is a launch, and a launch hands over a canonical memory and writes 0 into `x[0]`. -/
theorem resetAndLaunchMeetTheStateInvariant : Obligations.ResetAndLaunchMeetTheStateInvariant :=
  ⟨reset_eq_launch ▸ launch_inv _ _ _, launch_inv⟩

/-- Settles O50: the fields of `launch`, its registers and its memory handed over. -/
theorem launchStateIsBuiltFromEntryAndInit : Obligations.LaunchStateIsBuiltFromEntryAndInit := by
  intro p entry init s
  refine ⟨rfl, rfl, readReg_zero s, rfl, fun r nonzero => ?registers, rfl, rfl, rfl,
    fun wf a => memByte_memOfCells wf a⟩
  case registers => rw [readReg_of_x_eq_set_zero (s := s) rfl, if_neg nonzero]

/-- Settles O52: every premise is a field of `launch` but the one on the text (`textMapped`). -/
theorem launchMeetsTheLaunchPremises : Obligations.LaunchMeetsTheLaunchPremises :=
  fun _ _ init => launch_premises init

theorem readReg_reset (r : RegNum) : readReg State.reset r = 0#32 := by
  unfold readReg
  split
  · rfl
  · simp [State.reset]

/-- Settles O51: reset is a launch at an aligned entry that may be fetched. -/
theorem resetStateMeetsTheLaunchPremises : Obligations.ResetStateMeetsTheLaunchPremises := by
  refine ⟨?premises, rfl, rfl, readReg_reset, rfl, rfl, fun _ => rfl⟩
  case premises => exact reset_eq_launch ▸ launch_premises _ (by decide) (by decide)

/-! ## The step of a decoded word (R26) -/

/-- Settles O5: the four bytes are the fetched word, and R133 refuses nothing. -/
theorem stepRunsTheDecodedInstruction : Obligations.StepRunsTheDecodedInstruction := by
  intro s b0 b1 b2 b3 i running notHalted place admitted h0 h1 h2 h3 decoded slot
  have hr : runStopped s = none := runStopped_none.mpr ⟨running, notHalted⟩
  have word := memWord_some (o := s.params.byteOrder).mpr ⟨b0, b1, b2, b3, h0, h1, h2, h3, rfl⟩
  have fetched := fetchWord_value.mpr ⟨(aligned_iff _).mpr place, admitted, word⟩
  refine step_of_delaySlot_allowed hr fetched decoded (Bool.eq_false_iff.mpr fun refused => ?_)
  obtain ⟨transfer, taken, policy⟩ := delaySlotRefuses_iff.mp refused
  rcases slot transfer with sequential | literal
  · exact taken sequential
  · cases policy.symm.trans literal

/-- Settles O9: the entry at reset is aligned and may be fetched, and the word placed there is read back. -/
theorem firstStepAfterResetRunsThePlacedWord : Obligations.FirstStepAfterResetRunsThePlacedWord := by
  intro w i decoded
  have placed : memWord .big (State.reset.withFetchWord 32 w.toNat).mem entryAtReset = some w := by
    have same : BitVec.ofNat 32 (w.toNat % 2 ^ 32) = w := by
      rw [Nat.mod_eq_of_lt w.isLt, BitVec.ofNat_toNat, BitVec.setWidth_eq]
    rw [State.withFetchWord, same]
    exact memWord_memSetWord wf_nil _ (by decide) w
  have place : aligned entryAtReset = true := by decide
  have admitted : admits paramsAtReset .fetch .word entryAtReset = true := by decide
  have fetched : fetchWord (State.reset.withFetchWord 32 w.toNat) = .value w :=
    fetchWord_value.mpr ⟨place, admitted, placed⟩
  refine step_of_delaySlot_allowed rfl fetched decoded ?_
  simp [delaySlotRefuses, State.withFetchWord]

end Sys2Proof.Machine
end
